-- ==== Sys2Proof/Word.lean ====
section
/-! DEFINITION. The words of the machine: a byte, the value of the program counter, and the one
narrowing the spec uses (`00_scope.md` section 5). -/

namespace Sys2Proof

/-- The value of a register, a memory cell, an operand byte or an opcode byte: an unsigned
number 0..255 (`00_scope.md` section 5). -/
abbrev Byte := BitVec 8

/-- The program counter's value: 9 bits (`10_state.md` R15). -/
abbrev PcWord := BitVec 9

/-- `trunc8(v) = v mod 256` (`00_scope.md` section 5). -/
def trunc8 (v : Nat) : Byte := BitVec.ofNat 8 v

/-- `zext_9(v)`: a byte as a program counter value, unchanged (`00_scope.md` section 5). -/
def zext9 (v : Byte) : PcWord := v.setWidth 9

end Sys2Proof
end

