-- ==== Sys2Proof/Config.lean ====
section
/-! DEFINITION. The fixed sizes of the hardware (`00_scope.md` R5). Nothing here is a free value:
the spec leaves no value open that an instruction computes. The opcode bytes stand in
`Sys2Proof/Decode.lean`, the reset values in `Sys2Proof/Machine/ResetValues.lean`. -/

namespace Sys2Proof

/-- `NREG`: the number of general registers (`00_scope.md` R5, `10_state.md` R10). -/
abbrev Config.nreg : Nat := 8

/-- `MEMSIZE`: the number of memory cells (`00_scope.md` R5, `20_memory.md` R40). -/
abbrev Config.memSize : Nat := 256

/-- The name of a general register: an index 0..7 (`10_state.md` R10). -/
abbrev Reg := Fin Config.nreg

/-- `SP_INDEX`: the register that is the stack pointer (`10_state.md` R13). -/
abbrev Config.spIndex : Reg := 7

end Sys2Proof
end

