-- ==== Sys2Proof/Machine/ResetValues.lean ====
section
/-! DEFINITION. The values the spec's parameter table gives for reset (`00_scope.md` R5,
`10_state.md` section 9), as named constants. -/

namespace Sys2Proof.Machine

/-- `SP_RESET` (`10_state.md` R27). -/
def spReset : Byte := 0xF4#8

/-- The reset value of `x[0]` to `x[6]` (`10_state.md` R28). UNVERIFIED (D6, assumption log 2). -/
def gprReset : Byte := 0x00#8

/-- `PC_RESET` (`10_state.md` R29). UNVERIFIED (D8, assumption log 2). -/
def pcReset : PcWord := 0#9

/-- `FL_RESET`, the bits L, G, E from the most significant down (`10_state.md` R30).
UNVERIFIED (D5, assumption log 2). -/
def flReset : BitVec 3 := 0b000#3

end Sys2Proof.Machine
end

