-- ==== Sys2Proof/Machine/State.lean ====
section
/-! DEFINITION. The state of the engine, all of it and nothing else (`10_state.md`), the reasons a
step does not answer a next state, and the state after reset. -/

namespace Sys2Proof.Machine

/-- The flag register `FL`: three condition bits (`10_state.md` R18). -/
structure Flags where
  /-- `FL.L`, Less -/
  l : Bool
  /-- `FL.G`, Greater -/
  g : Bool
  /-- `FL.E`, Equal -/
  e : Bool
  deriving DecidableEq, Repr

/-- The run status `RUN` (`10_state.md` R20). -/
inductive RunStatus where
  /-- The engine takes steps. -/
  | running
  /-- Stopped by HLT; terminal. -/
  | halted
  /-- Stopped by a fault; terminal. -/
  | faulted
  deriving DecidableEq, Repr

/-- The fault kinds the engine can record (`60_exceptions.md` R141). "None" is the absence of a
record. -/
inductive FaultKind where
  /-- The byte fetched at `pc` is not an opcode byte (R142). -/
  | unknownOpcode
  /-- A register-selector operand byte is 8..255 (R143). -/
  | invalidRegister
  /-- A memory address of 256 or more is accessed (R144). -/
  | outOfRange
  /-- Raised by nothing; kept so that the list matches the source's (R145, D18). -/
  | unsupportedOperation
  deriving DecidableEq, Repr

/-- The fault record `(kind, at, info)` (`10_state.md` R21). -/
structure FaultRecord where
  /-- the kind of the fault -/
  kind : FaultKind
  /-- `at`: the `pc` of the faulting step -/
  pc : PcWord
  /-- the offending value: an opcode byte, an operand byte or an address (`60_exceptions.md` R141) -/
  info : Nat
  deriving DecidableEq, Repr

/-- The memory `M`: the cells that do not read as an unlisted cell does, each with its address, in
rising order of addresses (`Memory.wf` says the form). -/
abbrev Memory := List Host.Cell

/-- The architectural state (`10_state.md` section 1). -/
structure State where
  /-- `x[0]` to `x[7]`; `x[7]` is the stack pointer (R10, R13) -/
  regs : Vector Byte Config.nreg
  /-- the program counter (R15) -/
  pc : PcWord
  /-- the flag register (R18) -/
  fl : Flags
  /-- the run status (R20) -/
  run : RunStatus
  /-- the fault record (R21) -/
  fault : Option FaultRecord
  /-- the memory (R22) -/
  mem : Memory
  /-- the output trace, oldest value first (R24) -/
  out : List Byte
  deriving DecidableEq, Repr

/-- Why `step` stops the machine instead of answering a next state. No instruction raises one: an
engine fault is a next state in which `RUN` is Faulted (`60_exceptions.md` R146). -/
inductive Fault where
  /-- Raised by `step` alone, when `RUN` is Halted: the engine then has no step (`40_engine.md` R80).
  Safe: the machine stops where the hardware stops (assumption log 5). -/
  | noStepHalted
  /-- Raised by `step` alone, when `RUN` is Faulted: the engine then has no step (`40_engine.md` R80).
  Safe: the machine stops where the hardware stops (assumption log 5). -/
  | noStepFaulted
  deriving DecidableEq, Repr

/-- Why the model gives a request no meaning. -/
inductive Refusal where
  /-- The instruction with this mnemonic has no meaning yet. Raised by no arm of `exec`: every
  instruction is modelled. Safe. -/
  | notModelled (mnemonic : String)
  /-- Raised by `hostReset` alone: an image of more than 256 bytes is not an image
  (`70_reset_and_hazards.md` R173). Safe: the spec says the model refuses it. -/
  | imageTooLong
  deriving DecidableEq, Repr

/-- The state right after reset with the empty image (`10_state.md` R27 to R34,
`70_reset_and_hazards.md` R170). A memory with no entry is 0 in every cell (R33). -/
def State.reset : State where
  regs := #v[gprReset, gprReset, gprReset, gprReset, gprReset, gprReset, gprReset, spReset]
  pc := pcReset
  fl := { l := flReset.getLsbD 2, g := flReset.getLsbD 1, e := flReset.getLsbD 0 }
  run := .running
  fault := none
  mem := []
  out := []

end Sys2Proof.Machine
end

