-- ==== Sys2Proof/Machine/Alu.lean ====
section
/-! DEFINITION. The operations of the ALU (`40_engine.md` R90): exact arithmetic on the unsigned
operands, then one explicit narrowing modulo 256 (R91). No operation touches a flag. -/

namespace Sys2Proof.Machine

/-- add: `(u + v) mod 256` -/
def aluAdd (u v : Byte) : Byte := trunc8 (u.toNat + v.toNat)

/-- multiply: `(u * v) mod 256`; the high byte is discarded -/
def aluMul (u v : Byte) : Byte := trunc8 (u.toNat * v.toNat)

/-- decrement: `(u - 1) mod 256`, with a result of 255 for 0 -/
def aluDec (u : Byte) : Byte := trunc8 (u.toNat + 255)

/-- increment: `(u + 1) mod 256` -/
def aluInc (u : Byte) : Byte := trunc8 (u.toNat + 1)

/-- return address: `(pc + 2) mod 256`, the byte after a CALL -/
def aluReturnAddress (pc : PcWord) : Byte := trunc8 (pc.toNat + 2)

end Sys2Proof.Machine
end

