-- ==== Sys2Proof/Machine/Ops.lean ====
section
/-! DEFINITION. The named operations over registers, memory, flags, output and the program
counter, taking a fault, halting, and finishing a step: the primitives of `00_scope.md` section 6. -/

namespace Sys2Proof.Machine

/-! ### Memory cells -/

/-- What an unlisted cell reads as: the reset content of every cell the image does not cover
(`10_state.md` R33). -/
def Memory.unlisted : Byte := 0

/-- The byte in cell `a`. -/
def Memory.read : Memory → Nat → Byte
  | [], _ => Memory.unlisted
  | c :: rest, a => if c.1 = a then c.2 else Memory.read rest a

/-- The memory with no entry for cell `a`. -/
def Memory.erase (m : Memory) (a : Nat) : Memory := m.filter fun c => c.1 != a

/-- The memory with an entry for cell `a` put before the first entry of a higher address. -/
def Memory.insert : Memory → Nat → Byte → Memory
  | [], a, v => [(a, v)]
  | c :: rest, a, v => if a < c.1 then (a, v) :: c :: rest else c :: Memory.insert rest a v

/-- The memory with `v` in cell `a`; writing what an unlisted cell reads as removes the entry. -/
def Memory.write (m : Memory) (a : Nat) (v : Byte) : Memory :=
  if v = Memory.unlisted then Memory.erase m a else Memory.insert (Memory.erase m a) a v

/-- The canonical form: addresses strictly rising, all of them inside the 256 cells, and no entry
equal to what an unlisted cell reads as. -/
def Memory.wf (m : Memory) : Bool :=
  decide (m.Pairwise fun c d => c.1 < d.1) &&
    m.all fun c => decide (c.1 < Config.memSize) && c.2 != Memory.unlisted

/-- The bytes of a list in consecutive cells from `a` upward, the cells of 256 and above left out. -/
def Memory.writeList (m : Memory) (a : Nat) : List Byte → Memory
  | [] => m
  | v :: vs =>
    Memory.writeList (if a < Config.memSize then Memory.write m a v else m) (a + 1) vs

/-! ### Registers, program counter, flags, output -/

/-- `x[i]` (`10_state.md` R10). -/
def readReg (s : State) (i : Reg) : Byte := s.regs[i]

/-- `x[i] <- v` (`10_state.md` R11). No register discards writes (R10). -/
def writeReg (s : State) (i : Reg) (v : Byte) : State := { s with regs := s.regs.set i v }

/-- `sp`, another name of `x[7]` (`10_state.md` R13). -/
def readSp (s : State) : Byte := readReg s Config.spIndex

/-- `x[7] <- v` (`10_state.md` R13). -/
def writeSp (s : State) (v : Byte) : State := writeReg s Config.spIndex v

/-- `pc <- t` as a value; that the step has set it is said by `Effect.jumped`. -/
def setPc (s : State) (t : PcWord) : State := { s with pc := t }

/-- `FL <- (l, g, e)`: all three bits are replaced (`46_compare.md` R125). -/
def setFlags (s : State) (f : Flags) : State := { s with fl := f }

/-- `Emit(v)`: the byte goes to the end of the output trace (`10_state.md` R24). -/
def emit (s : State) (v : Byte) : State := { s with out := s.out ++ [v] }

/-- `halt`: `RUN <- Halted` (`41_machine_control.md` R101). -/
def halt (s : State) : State := { s with run := .halted }

/-- The state with `v` in cell `a`, whatever `a` is; `memWrite` adds the bounds check. -/
def storeByte (s : State) (a : Nat) (v : Byte) : State := { s with mem := Memory.write s.mem a v }

/-! ### Faults -/

/-- A fault on its way: `raise K(info)` (`00_scope.md` section 6). -/
structure Raised where
  kind : FaultKind
  info : Nat
  deriving DecidableEq, Repr

/-- Fault entry, from the state at the start of the step: `RUN <- Faulted`,
`FAULT <- (K, pc, v)`, nothing else changes (`60_exceptions.md` R146). There is no way back
from it but reset (R148). -/
def takeFault (s : State) (r : Raised) : State :=
  { s with run := .faulted, fault := some { kind := r.kind, pc := s.pc, info := r.info } }

/-! ### Memory accesses of the engine (`20_memory.md` R41, R42) -/

/-- `MemRead(a, 1)` (`20_memory.md` R41). -/
def memRead (s : State) (a : Nat) : Except Raised Byte :=
  if a < Config.memSize then .ok (Memory.read s.mem a) else .error ⟨.outOfRange, a⟩

/-- `MemWrite(a, 1, v)` (`20_memory.md` R42). -/
def memWrite (s : State) (a : Nat) (v : Byte) : Except Raised State :=
  if a < Config.memSize then .ok (storeByte s a v) else .error ⟨.outOfRange, a⟩

/-! ### Finishing a step (`40_engine.md` R86, R88) -/

/-- What an instruction's body did when it raised nothing. -/
inductive Effect where
  /-- The body left `pc` to the engine (`pc_set` is false). -/
  | sequential (s : State)
  /-- The body set `pc`, or keeps it as HLT does (`pc_set` is true). -/
  | jumped (s : State)
  deriving DecidableEq, Repr

/-- Phase 5: the engine's own advance, `pc <- pc + 1 + n`, not reduced modulo 256
(`40_engine.md` R86). -/
def advance (n : Nat) (s : State) : State := setPc s (s.pc + BitVec.ofNat 9 (1 + n))

/-- The end of a step that began in `s` with an instruction of `n` operand bytes: a fault is taken
from `s` itself, so that a faulting step has no other effect (`40_engine.md` R85); a body that set
`pc` is not advanced; any other is (R86). -/
def complete (n : Nat) (s : State) (body : Except Raised Effect) :
    Host.Outcome State Fault Refusal :=
  match body with
  | .error r => .next (takeFault s r)
  | .ok (.jumped t) => .next t
  | .ok (.sequential t) => .next (advance n t)

end Sys2Proof.Machine
end

