-- ==== Sys2Proof/Machine/Operands.lean ====
section
/-! DEFINITION. The operand forms: the register selector with its check, the immediate, and the
addresses of the four implicit stack accesses (`30_encoding.md` R64, R65, R70; `20_memory.md` R43). -/

namespace Sys2Proof.Machine

/-- `RegCheck(b)`: the whole operand byte is the register index; 8..255 raises `InvalidRegister(b)`
(`30_encoding.md` R64). -/
def regCheck (b : Byte) : Except Raised Reg :=
  if h : b.toNat < Config.nreg then .ok ⟨b.toNat, h⟩ else .error ⟨.invalidRegister, b.toNat⟩

/-- The immediate of LDI: the operand byte as it stands (`30_encoding.md` R65). -/
def immediate (b : Byte) : Byte := b

/-- A register value or a memory byte as a jump target: an absolute address (`47_jumps.md`). -/
def target (v : Byte) : PcWord := zext9 v

end Sys2Proof.Machine
end

