-- ==== Sys2Proof/Machine/Arithmetic.lean ====
section
/-! DEFINITION. ADD and MUL (`43_arithmetic.md`). -/

namespace Sys2Proof.Machine

/-- ADD Ra, Rb: `RegCheck(a); RegCheck(b); x[a] <- (x[a] + x[b]) mod 256` (R110). -/
def execAdd (a b : Byte) (s : State) : Host.Outcome State Fault Refusal :=
  complete 2 s do
    let ra ← regCheck a
    let rb ← regCheck b
    return .sequential (writeReg s ra (aluAdd (readReg s ra) (readReg s rb)))

/-- MUL Ra, Rb: `RegCheck(a); RegCheck(b); x[a] <- (x[a] * x[b]) mod 256` (R111). -/
def execMul (a b : Byte) (s : State) : Host.Outcome State Fault Refusal :=
  complete 2 s do
    let ra ← regCheck a
    let rb ← regCheck b
    return .sequential (writeReg s ra (aluMul (readReg s ra) (readReg s rb)))

end Sys2Proof.Machine
end

