-- ==== Sys2Proof/Machine/Flags.lean ====
section
/-! DEFINITION. The one flag computation of the machine, CMP's, the one flag test, and how the flag
register is shown as a byte (`46_compare.md` R125, `10_state.md` R18, R36). -/

namespace Sys2Proof.Machine

/-- compare: exactly one of Less, Greater, Equal, by the unsigned order of the operands
(`40_engine.md` R90, `46_compare.md` R125). -/
def compareFlags (u v : Byte) : Flags :=
  if u.toNat < v.toNat then { l := true, g := false, e := false }
  else if u.toNat > v.toNat then { l := false, g := true, e := false }
  else { l := false, g := false, e := true }

/-- The condition of JEQ: `FL.E = 1`. L and G play no part (`47_jumps.md` R131). -/
def equalSet (f : Flags) : Bool := f.e

/-- `FL` shown as a byte, `0b00000LGE` (`10_state.md` R36). UNVERIFIED (D4, assumption log 3); no
program can observe it. -/
def Flags.toByte (f : Flags) : Byte :=
  trunc8 ((if f.l then 4 else 0) + (if f.g then 2 else 0) + (if f.e then 1 else 0))

end Sys2Proof.Machine
end

