-- ==== Sys2Proof/Machine/Compare.lean ====
section
/-! DEFINITION. CMP (`46_compare.md`): the intended semantics, not the reference software's defect
(`90_conflicts.md` C7). -/

namespace Sys2Proof.Machine

/-- CMP Ra, Rb: `RegCheck(a); RegCheck(b)`, then all three flags by the unsigned order (R125). -/
def execCmp (a b : Byte) (s : State) : Host.Outcome State Fault Refusal :=
  complete 2 s do
    let ra ← regCheck a
    let rb ← regCheck b
    return .sequential (setFlags s (compareFlags (readReg s ra) (readReg s rb)))

end Sys2Proof.Machine
end

