-- ==== Sys2Proof/Machine/DataMovement.lean ====
section
/-! DEFINITION. LDI and PRN (`42_data_movement.md`). -/

namespace Sys2Proof.Machine

/-- LDI Ra, imm8: `RegCheck(a); x[a] <- b` (R105). -/
def execLdi (a b : Byte) (s : State) : Host.Outcome State Fault Refusal :=
  complete 2 s do
    let ra ← regCheck a
    return .sequential (writeReg s ra (immediate b))

/-- PRN Ra: `RegCheck(a); Emit(x[a])` (R106). -/
def execPrn (a : Byte) (s : State) : Host.Outcome State Fault Refusal :=
  complete 1 s do
    let ra ← regCheck a
    return .sequential (emit s (readReg s ra))

end Sys2Proof.Machine
end

