-- ==== Sys2Proof/Machine/Jumps.lean ====
section
/-! DEFINITION. JMP, JEQ and JNE (`47_jumps.md`). The register check comes first, whether or not
the jump is taken (the spec's D12, assumption log 4). -/

namespace Sys2Proof.Machine

/-- `pc <- x[r]`, which also marks the step as having set `pc` (`40_engine.md` R86). -/
def jumpTo (s : State) (r : Reg) : Effect := .jumped (setPc s (target (readReg s r)))

/-- JMP Ra: `RegCheck(a); pc <- x[a]` (R130). -/
def execJmp (a : Byte) (s : State) : Host.Outcome State Fault Refusal :=
  complete 1 s do
    let ra ← regCheck a
    return jumpTo s ra

/-- JEQ Ra: `RegCheck(a); if FL.E = 1: pc <- x[a]` (R131). -/
def execJeq (a : Byte) (s : State) : Host.Outcome State Fault Refusal :=
  complete 1 s do
    let ra ← regCheck a
    return if equalSet s.fl then jumpTo s ra else .sequential s

/-- JNE Ra: `RegCheck(a); if FL.E = 0: pc <- x[a]` (R132). -/
def execJne (a : Byte) (s : State) : Host.Outcome State Fault Refusal :=
  complete 1 s do
    let ra ← regCheck a
    return if equalSet s.fl then .sequential s else jumpTo s ra

end Sys2Proof.Machine
end

