-- ==== Sys2Proof/Machine/MachineControl.lean ====
section
/-! DEFINITION. NOP and HLT (`41_machine_control.md`). -/

namespace Sys2Proof.Machine

/-- NOP: the body is empty (R100). -/
def execNop (s : State) : Host.Outcome State Fault Refusal :=
  complete 0 s (.ok (.sequential s))

/-- HLT: `RUN <- Halted`; the engine does not advance `pc` (R101). -/
def execHlt (s : State) : Host.Outcome State Fault Refusal :=
  complete 0 s (.ok (.jumped (halt s)))

end Sys2Proof.Machine
end

