-- ==== Sys2Proof/Machine/Stack.lean ====
section
/-! DEFINITION. PUSH and POP (`44_stack.md`): pre-decrement then write, read then post-increment.
The statements of a body take effect one after the other, which matters when `a = 7`
(`00_scope.md` section 6; the spec's D19, assumption log 4). -/

namespace Sys2Proof.Machine

/-- PUSH's `x[7] <- (x[7] - 1) mod 256` (R115). -/
def pushPointer (s : State) : State := writeSp s (aluDec (readSp s))

/-- The cell PUSH writes: `sp` after its decrement (`20_memory.md` R43). -/
def pushAddress (s : State) : Nat := (readSp (pushPointer s)).toNat

/-- The byte PUSH stores: `x[a]` read after the decrement (R115). -/
def pushValue (s : State) (r : Reg) : Byte := readReg (pushPointer s) r

/-- PUSH Ra: `RegCheck(a); x[7] <- (x[7] - 1) mod 256; MemWrite(x[7], 1, x[a])` (R115). -/
def execPush (a : Byte) (s : State) : Host.Outcome State Fault Refusal :=
  complete 1 s do
    let ra ← regCheck a
    let t ← memWrite (pushPointer s) (pushAddress s) (pushValue s ra)
    return .sequential t

/-- The cell POP reads: `sp` before its increment (`20_memory.md` R43). -/
def popAddress (s : State) : Nat := (readSp s).toNat

/-- POP Ra: `RegCheck(a); x[a] <- MemRead(x[7], 1); x[7] <- (x[7] + 1) mod 256`, the last one
reading `x[7]` after the write to `x[a]` (R116). -/
def execPop (a : Byte) (s : State) : Host.Outcome State Fault Refusal :=
  complete 1 s do
    let ra ← regCheck a
    let v ← memRead s (popAddress s)
    let t := writeReg s ra v
    return .sequential (writeSp t (aluInc (readSp t)))

end Sys2Proof.Machine
end

