-- ==== Sys2Proof/Machine/Subroutine.lean ====
section
/-! DEFINITION. CALL and RET (`45_subroutine.md`): write then decrement, increment then read, the
opposite of PUSH and POP (the spec's D13, `90_conflicts.md` C2, assumption log 4). -/

namespace Sys2Proof.Machine

/-- The cell CALL writes: `sp` before its decrement (`20_memory.md` R43). -/
def callAddress (s : State) : Nat := (readSp s).toNat

/-- CALL Ra: `RegCheck(a); MemWrite(x[7], 1, (pc + 2) mod 256); x[7] <- (x[7] - 1) mod 256;
pc <- x[a]`, the last one reading `x[a]` after the decrement (R120). -/
def execCall (a : Byte) (s : State) : Host.Outcome State Fault Refusal :=
  complete 1 s do
    let ra ← regCheck a
    let t ← memWrite s (callAddress s) (aluReturnAddress s.pc)
    let u := writeSp t (aluDec (readSp t))
    return .jumped (setPc u (target (readReg u ra)))

/-- RET's `x[7] <- (x[7] + 1) mod 256` (R121). -/
def retPointer (s : State) : State := writeSp s (aluInc (readSp s))

/-- The cell RET reads: `sp` after its increment (`20_memory.md` R43). -/
def retAddress (s : State) : Nat := (readSp (retPointer s)).toNat

/-- RET: `x[7] <- (x[7] + 1) mod 256; pc <- MemRead(x[7], 1)` (R121). -/
def execRet (s : State) : Host.Outcome State Fault Refusal :=
  complete 0 s do
    let v ← memRead (retPointer s) (retAddress s)
    return .jumped (setPc (retPointer s) (target v))

end Sys2Proof.Machine
end

