-- ==== Sys2Proof/Syntax.lean ====
section
/-! DEFINITION. The fourteen instructions, one constructor per row of `opcode_table.json`, in the
table's order.

A register operand is kept as the WHOLE operand byte: the byte is not masked, a byte 8..255 is a
legal thing to fetch, and it is the instruction's own body that raises `InvalidRegister` on it
(`30_encoding.md` R64, `40_engine.md` R84, `60_exceptions.md` R143). -/

namespace Sys2Proof

/-- One instruction with its operand bytes. -/
inductive Instr where
  /-- NOP, format Z (`41_machine_control.md` R100) -/
  | nop
  /-- HLT, format Z (`41_machine_control.md` R101) -/
  | hlt
  /-- LDI Ra, imm8, format RI (`42_data_movement.md` R105) -/
  | ldi (ra imm : Byte)
  /-- PRN Ra, format R (`42_data_movement.md` R106) -/
  | prn (ra : Byte)
  /-- ADD Ra, Rb, format RR (`43_arithmetic.md` R110) -/
  | add (ra rb : Byte)
  /-- MUL Ra, Rb, format RR (`43_arithmetic.md` R111) -/
  | mul (ra rb : Byte)
  /-- PUSH Ra, format R (`44_stack.md` R115) -/
  | push (ra : Byte)
  /-- POP Ra, format R (`44_stack.md` R116) -/
  | pop (ra : Byte)
  /-- CALL Ra, format R (`45_subroutine.md` R120) -/
  | call (ra : Byte)
  /-- RET, format Z (`45_subroutine.md` R121) -/
  | ret
  /-- CMP Ra, Rb, format RR (`46_compare.md` R125) -/
  | cmp (ra rb : Byte)
  /-- JMP Ra, format R (`47_jumps.md` R130) -/
  | jmp (ra : Byte)
  /-- JEQ Ra, format R (`47_jumps.md` R131) -/
  | jeq (ra : Byte)
  /-- JNE Ra, format R (`47_jumps.md` R132) -/
  | jne (ra : Byte)
  deriving DecidableEq, Repr

end Sys2Proof
end

