-- ==== Sys2Proof/Machine/Dispatch.lean ====
section
/-! DEFINITION. Phases 4 and 5 of a step: the body of the instruction and the engine's advance
(`40_engine.md` R84, R86, R88), one arm per instruction. -/

namespace Sys2Proof.Machine

def exec (i : Instr) (s : State) : Host.Outcome State Fault Refusal :=
  match i with
  | .nop => Sys2Proof.Machine.execNop s
  | .hlt => Sys2Proof.Machine.execHlt s
  | .ldi ra imm => Sys2Proof.Machine.execLdi ra imm s
  | .prn ra => Sys2Proof.Machine.execPrn ra s
  | .add ra rb => Sys2Proof.Machine.execAdd ra rb s
  | .mul ra rb => Sys2Proof.Machine.execMul ra rb s
  | .push ra => Sys2Proof.Machine.execPush ra s
  | .pop ra => Sys2Proof.Machine.execPop ra s
  | .call ra => Sys2Proof.Machine.execCall ra s
  | .ret => Sys2Proof.Machine.execRet s
  | .cmp ra rb => Sys2Proof.Machine.execCmp ra rb s
  | .jmp ra => Sys2Proof.Machine.execJmp ra s
  | .jeq ra => Sys2Proof.Machine.execJeq ra s
  | .jne ra => Sys2Proof.Machine.execJne ra s

end Sys2Proof.Machine
end

