-- ==== Sys2Proof/WellFormed.lean ====
section
/-! DEFINITION. Which instructions have an assembly form: those whose register selectors all name
a register (`30_encoding.md` R64, R71, R75). An instruction that is not well formed can still be
fetched; it raises `InvalidRegister` when it executes (`60_exceptions.md` R143). -/

namespace Sys2Proof

/-- The register-selector operand bytes of an instruction, in the order they are checked
(the table of `60_exceptions.md` R143). The immediate of LDI is none of them. -/
def Instr.selectors : Instr → List Byte
  | .nop => []
  | .hlt => []
  | .ldi ra _ => [ra]
  | .prn ra => [ra]
  | .add ra rb => [ra, rb]
  | .mul ra rb => [ra, rb]
  | .push ra => [ra]
  | .pop ra => [ra]
  | .call ra => [ra]
  | .ret => []
  | .cmp ra rb => [ra, rb]
  | .jmp ra => [ra]
  | .jeq ra => [ra]
  | .jne ra => [ra]

/-- A selector byte names a register when it is 0..7, compared whole (`30_encoding.md` R64). -/
def selectorLegal (b : Byte) : Bool := b.toNat < Config.nreg

/-- Every register selector of the instruction is legal (`30_encoding.md` R71). -/
def Instr.wellFormed (i : Instr) : Bool := i.selectors.all selectorLegal

end Sys2Proof
end

