-- ==== Sys2Proof/Decode.lean ====
section
/-! DEFINITION. The opcode map, the length decoder, the dispatcher, the decoder and the encoder
(`30_encoding.md`). -/

namespace Sys2Proof

/-! ### The opcode bytes (`30_encoding.md` R66)

NOP, HLT, LDI and PRN are given by the source. The other ten are the spec's decision D2: named
constants, so that they are replaced in one place (assumption log 1). -/

def OPC_NOP  : Byte := 0b00000000#8
def OPC_HLT  : Byte := 0b00000001#8
def OPC_LDI  : Byte := 0b10000010#8
def OPC_PRN  : Byte := 0b01000111#8
/-- UNVERIFIED (D2, assumption log 1), as the nine below. -/
def OPC_ADD  : Byte := 0b10100000#8
def OPC_MUL  : Byte := 0b10100010#8
def OPC_PUSH : Byte := 0b01000101#8
def OPC_POP  : Byte := 0b01000110#8
def OPC_CALL : Byte := 0b01010000#8
def OPC_RET  : Byte := 0b00010001#8
def OPC_CMP  : Byte := 0b10100111#8
def OPC_JMP  : Byte := 0b01010100#8
def OPC_JEQ  : Byte := 0b01010101#8
def OPC_JNE  : Byte := 0b01010110#8

/-! ### The fields of the opcode byte (`30_encoding.md` R61, R62) -/

/-- `N`, bits 7:6: the number of operand bytes that follow (`30_encoding.md` R61). -/
def operandCount (op : Byte) : Nat := (op.extractLsb' 6 2).toNat

/-- `SEL`, bits 5:0: the operation selector (`30_encoding.md` R61). Dispatch does not use it: the
whole byte is compared (R63). -/
def selector (op : Byte) : BitVec 6 := op.extractLsb' 0 6

/-- The length decoder: `1 + N` (`30_encoding.md` R62). -/
def instrLength (op : Byte) : Nat := 1 + operandCount op

/-! ### The dispatcher (`40_engine.md` R89) -/

/-- The opcode map: each opcode byte with the instruction it selects, as a function of the first
and the second operand byte. An instruction with fewer operands ignores the rest. -/
def opcodeMap : List (Byte × (Byte → Byte → Instr)) :=
  [ (OPC_NOP,  fun _ _ => .nop),
    (OPC_HLT,  fun _ _ => .hlt),
    (OPC_LDI,  fun a b => .ldi a b),
    (OPC_PRN,  fun a _ => .prn a),
    (OPC_ADD,  fun a b => .add a b),
    (OPC_MUL,  fun a b => .mul a b),
    (OPC_PUSH, fun a _ => .push a),
    (OPC_POP,  fun a _ => .pop a),
    (OPC_CALL, fun a _ => .call a),
    (OPC_RET,  fun _ _ => .ret),
    (OPC_CMP,  fun a b => .cmp a b),
    (OPC_JMP,  fun a _ => .jmp a),
    (OPC_JEQ,  fun a _ => .jeq a),
    (OPC_JNE,  fun a _ => .jne a) ]

/-- The dispatcher: the whole byte selects one of the fourteen instructions, or none
(`30_encoding.md` R63, `40_engine.md` R89). -/
def dispatch (op : Byte) : Option (Byte → Byte → Instr) := opcodeMap.lookup op

/-! ### The decoder -/

/-- Why a list of bytes does not begin with an instruction. -/
inductive DecodeError where
  /-- There is no byte at all. -/
  | noOpcode
  /-- The first byte is none of the fourteen opcode bytes (`30_encoding.md` R68). -/
  | unknownOpcode (op : Byte)
  /-- The `k`-th operand byte (1 or 2) is missing. -/
  | missingOperand (k : Nat)
  deriving DecidableEq, Repr

/-- Reads one instruction from the front of a list of bytes and gives the bytes after it. The look-up
comes before any operand byte is read (`30_encoding.md` R68), the operand bytes are read in order
(`40_engine.md` R83). -/
def decode : List Byte → Except DecodeError (Instr × List Byte)
  | [] => .error .noOpcode
  | op :: rest =>
    match dispatch op with
    | none => .error (.unknownOpcode op)
    | some build =>
      match operandCount op, rest with
      | 0, r => .ok (build 0 0, r)
      | _ + 1, [] => .error (.missingOperand 1)
      | 1, a :: r => .ok (build a 0, r)
      | _ + 2, [_] => .error (.missingOperand 2)
      | _ + 2, a :: b :: r => .ok (build a b, r)

/-! ### The encoder (`30_encoding.md` R60, R66) -/

/-- The bytes of an instruction, opcode byte first (the lowest address). -/
def encode : Instr → List Byte
  | .nop => [OPC_NOP]
  | .hlt => [OPC_HLT]
  | .ldi ra imm => [OPC_LDI, ra, imm]
  | .prn ra => [OPC_PRN, ra]
  | .add ra rb => [OPC_ADD, ra, rb]
  | .mul ra rb => [OPC_MUL, ra, rb]
  | .push ra => [OPC_PUSH, ra]
  | .pop ra => [OPC_POP, ra]
  | .call ra => [OPC_CALL, ra]
  | .ret => [OPC_RET]
  | .cmp ra rb => [OPC_CMP, ra, rb]
  | .jmp ra => [OPC_JMP, ra]
  | .jeq ra => [OPC_JEQ, ra]
  | .jne ra => [OPC_JNE, ra]

/-! ### The host's view of a row of the opcode table -/

/-- The longest instruction has three bytes (`30_encoding.md` R60). -/
def maxInstrBytes : Nat := 3

/-- Byte `k` of a number whose bit 0 is the least significant bit of byte 0. -/
def byteOf (w k : Nat) : Byte := trunc8 (w / 256 ^ k)

/-- The three bytes of an instruction whose low `nbits` bits are those of `w` and whose other bits
are zero, first byte first. -/
def tableBytes (nbits w : Nat) : List Byte :=
  let v := w % 2 ^ nbits
  [byteOf v 0, byteOf v 1, byteOf v 2]

/-- What the decoder reads from an instruction whose low `nbits` bits are those of `w`. -/
def decodeTableWord (nbits w : Nat) : Option Instr :=
  match decode (tableBytes nbits w) with
  | .ok (i, _) => some i
  | .error _ => none

end Sys2Proof
end

