-- ==== Sys2Proof/Machine/Fetch.lean ====
section
/-! DEFINITION. Phases 1 to 3 of a step: fetch, look up, operand fetch (`40_engine.md` R81 to R83),
in the order of R88, and placing bytes where the next fetch reads them. -/

namespace Sys2Proof.Machine

/-- Phase 3: the operand bytes `n` says there are, the first at `pc + 1`, the second at `pc + 2`
(`40_engine.md` R83). A byte that is not fetched is given as 0 and is not used. -/
def fetchOperands (s : State) (n : Nat) : Except Raised (Byte × Byte) := do
  let a ← if 1 ≤ n then memRead s (s.pc.toNat + 1) else pure 0
  let b ← if n = 2 then memRead s (s.pc.toNat + 2) else pure 0
  return (a, b)

/-- Phases 1 to 3: the instruction at `pc`, or the fault its fetch raises (`40_engine.md` R81, R82,
R83). -/
def fetch (s : State) : Except Raised Instr := do
  let op ← memRead s s.pc.toNat
  match dispatch op with
  | none => throw ⟨.unknownOpcode, op.toNat⟩
  | some build =>
    let (a, b) ← fetchOperands s (operandCount op)
    return build a b

/-- The state with bytes in the cells from `pc` upward, where the next fetch reads them. Bytes that
would lie at 256 or above have no cell and are left out (assumption log 8). -/
def placeAtPc (s : State) (bytes : List Byte) : State :=
  { s with mem := Memory.writeList s.mem s.pc.toNat bytes }

end Sys2Proof.Machine
end

