-- ==== Sys2Proof/Machine/Step.lean ====
section
/-! DEFINITION. One step of the engine (`40_engine.md` R80, R88). -/

namespace Sys2Proof.Machine

/-- One step. There is one exactly when `RUN` is Running (`40_engine.md` R80). A fault of the fetch
is taken like any other (`60_exceptions.md` R146). -/
def step (s : State) : Host.Outcome State Fault Refusal :=
  match s.run with
  | .halted => .fault .noStepHalted
  | .faulted => .fault .noStepFaulted
  | .running =>
    match fetch s with
    | .error r => .next (takeFault s r)
    | .ok i => exec i s

/-- The state with the instruction whose low `nbits` bits are those of `w` at `pc`. -/
def State.withFetchWord (s : State) (nbits w : Nat) : State := placeAtPc s (tableBytes nbits w)

end Sys2Proof.Machine
end

