-- ==== Sys2Proof/Machine/HostInterface.lean ====
section
/-! DEFINITION. What the host may do (`70_reset_and_hazards.md` R175): reset with an image, let the
engine run, read the status, the output and the final state. -/

namespace Sys2Proof.Machine

/-- The memory after reset: byte `j` of the image in cell `j`, 0 elsewhere (`10_state.md` R33,
`70_reset_and_hazards.md` R173). -/
def loadImage (image : List Byte) : Memory := Memory.writeList [] 0 image

/-- Reset with an image, in any state: every piece of state takes its reset value, nothing survives;
an image of more than 256 bytes is refused (`70_reset_and_hazards.md` R170, R173). -/
def hostReset (image : List Byte) (_s : State) : Host.Outcome State Fault Refusal :=
  if image.length ≤ Config.memSize then .next { State.reset with mem := loadImage image }
  else .refused .imageTooLong

/-- Let the engine run: steps are taken until `RUN` is not Running or the fuel is used up. The fuel
is the model's: the engine has no step limit (`40_engine.md` R87). -/
def runSteps : Nat → State → State
  | 0, s => s
  | k + 1, s =>
    match step s with
    | .next t => runSteps k t
    | .fault _ => s
    | .refused _ => s

/-- Read `RUN` and `FAULT`, at any time. -/
def hostReadStatus (s : State) : RunStatus × Option FaultRecord := (s.run, s.fault)

/-- Read `OUT`, at any time. -/
def hostReadOut (s : State) : List Byte := s.out

/-- What the host reads of the final state: `x`, `pc`, `FL`, `M`. -/
structure FinalView where
  regs : Vector Byte Config.nreg
  pc : PcWord
  fl : Byte
  mem : Memory
  deriving DecidableEq, Repr

/-- Read `x`, `pc`, `FL`, `M`: only when the run has ended. `FL` is shown as `0b00000LGE`
(`10_state.md` R36). -/
def hostReadFinal (s : State) : Option FinalView :=
  if s.run = .running then none
  else some { regs := s.regs, pc := s.pc, fl := s.fl.toByte, mem := s.mem }

/-- The numeric code of a fault kind (`60_exceptions.md` R141). UNVERIFIED (D10, assumption log 3). -/
def FaultKind.code : FaultKind → Nat
  | .unknownOpcode => 1
  | .invalidRegister => 2
  | .outOfRange => 3
  | .unsupportedOperation => 4

/-- The code a host reads from `FAULT`: 0 when there is no record (`60_exceptions.md` R141). -/
def faultCode (s : State) : Nat :=
  match s.fault with
  | none => 0
  | some f => f.kind.code

end Sys2Proof.Machine
end

