-- ==== Sys2Proof/Safety.lean ====
section
/-! DEFINITION. What counts as the end of a run, as a clean end and as a state a run can reach, and
the machine's invariant (`70_reset_and_hazards.md` R176, `60_exceptions.md` R151). -/

namespace Sys2Proof.Machine

/-- A run has ended (`70_reset_and_hazards.md` R176). -/
abbrev Ended (s : State) : Prop := s.run = .halted ∨ s.run = .faulted

/-- A run has ended cleanly: by HLT, never by a fault (`70_reset_and_hazards.md` R176,
`60_exceptions.md` R151). -/
abbrev EndedCleanly (s : State) : Prop := s.run = .halted

/-- A state is safe when no fault has stopped the engine. -/
abbrev Safe (s : State) : Prop := s.run ≠ .faulted

/-- At most one flag bit is set (`10_state.md` R19). -/
abbrev AtMostOneFlag (f : Flags) : Prop :=
  (f.l && f.g) = false ∧ (f.l && f.e) = false ∧ (f.g && f.e) = false

/-- Exactly one flag bit is set, as after any CMP (`10_state.md` R19). -/
abbrev ExactlyOneFlag (f : Flags) : Prop :=
  AtMostOneFlag f ∧ (f.l || f.g || f.e) = true

/-- The information a fault of each kind records (the table of `60_exceptions.md` R141): the fetched
byte, the operand byte of 8..255, the address 256; no fault is of the fourth kind (R145). -/
def infoFits : FaultKind → Nat → Bool
  | .unknownOpcode, v => decide (v < 256)
  | .invalidRegister, v => decide (8 ≤ v) && decide (v < 256)
  | .outOfRange, v => decide (v = 256)
  | .unsupportedOperation, _ => false

/-- The fault record is present exactly when a fault has stopped the engine, and then it names the
`pc` the engine stopped at and the information its kind records (`10_state.md` R20, R21,
`60_exceptions.md` R141, R146). -/
abbrev FaultRecordFits (s : State) : Prop :=
  (s.run = .faulted ↔ s.fault ≠ none) ∧
    ∀ f ∈ s.fault, f.pc = s.pc ∧ infoFits f.kind f.info = true

/-- The machine's invariant: the memory is canonical, `pc` is at most 256 (`10_state.md` R17), at
most one flag is set (R19), the fault record fits the run status (R20, R21). -/
abbrev Inv (s : State) : Prop :=
  Memory.wf s.mem = true ∧ s.pc.toNat ≤ 256 ∧ AtMostOneFlag s.fl ∧ FaultRecordFits s

/-- The states of a run: those a reset with an image leaves, and those a step leads to from them
(`40_engine.md` R87). -/
inductive Reachable : State → Prop
  | reset (image : List Byte) (s t : State) : hostReset image s = .next t → Reachable t
  | step (s t : State) : Reachable s → Sys2Proof.Machine.step s = .next t → Reachable t

end Sys2Proof.Machine
end

