-- ==== Sys2Proof/Certificates/Slice0/Obligations.lean ====
section
/-! DEFINITION. The statements about the machine, and the few words they are written in. Each
docstring names the rule of `spec/` it formalises, or says which decision of the spec
(`92_eei_decisions.md`) it rests on. -/

namespace Sys2Proof.Claims

open Sys2Proof.Machine

/-! ### Words used by the statements -/

/-- The bytes `bs` stand in memory from `pc` upward, all inside the 256 cells. -/
abbrev BytesAt (s : State) (bs : List Byte) : Prop :=
  s.pc.toNat + bs.length ≤ 256 ∧
    ∀ k (h : k < bs.length), Memory.read s.mem (s.pc.toNat + k) = bs[k]

/-- The engine is running and the bytes `bs` stand at `pc`. -/
abbrev Placed (s : State) (bs : List Byte) : Prop := s.run = .running ∧ BytesAt s bs

/-- The engine is running and an opcode byte `op` stands so close to the end of memory that one of
its `n` operand bytes would lie at address 256. -/
abbrev CutOff (s : State) (op : Byte) (n : Nat) : Prop :=
  s.run = .running ∧ s.pc.toNat < 256 ∧ 256 ≤ s.pc.toNat + n ∧
    Memory.read s.mem s.pc.toNat = op

/-- Every register of `t` holds what it holds in `s`. -/
abbrev RegsKept (s t : State) : Prop := ∀ q : Reg, readReg t q = readReg s q

/-- Every register but `r` is kept. -/
abbrev RegsKeptBut (r : Reg) (s t : State) : Prop := ∀ q : Reg, q ≠ r → readReg t q = readReg s q

/-- Every byte of memory is kept. -/
abbrev MemKept (s t : State) : Prop := ∀ a : Nat, Memory.read t.mem a = Memory.read s.mem a

/-- Every byte of memory but cell `c` is kept. -/
abbrev MemKeptBut (c : Nat) (s t : State) : Prop :=
  ∀ a : Nat, a ≠ c → Memory.read t.mem a = Memory.read s.mem a

/-- The run status and the fault record are kept. -/
abbrev StatusKept (s t : State) : Prop := t.run = s.run ∧ t.fault = s.fault

/-- `t` has stopped with fault kind `k` and information `v`, recorded with the `pc` of `s`
(`10_state.md` R21, `60_exceptions.md` R141). -/
abbrev FaultRecorded (s t : State) (k : FaultKind) (v : Nat) : Prop :=
  t.run = .faulted ∧ t.fault = some { kind := k, pc := s.pc, info := v }

/-- Fault entry whole: the fault is recorded and nothing else has changed
(`60_exceptions.md` R146). -/
abbrev FaultEntered (s t : State) (k : FaultKind) (v : Nat) : Prop :=
  FaultRecorded s t k v ∧ RegsKept s t ∧ t.fl = s.fl ∧ MemKept s t ∧ t.pc = s.pc ∧ t.out = s.out

/-- `exec i s` takes fault `k` with information `v`. -/
abbrev ExecFaults (i : Instr) (s : State) (k : FaultKind) (v : Nat) : Prop :=
  ∃ t, exec i s = .next t ∧ FaultRecorded s t k v

/-- `step s` takes fault `k` with information `v`. -/
abbrev StepFaults (s : State) (k : FaultKind) (v : Nat) : Prop :=
  ∃ t, step s = .next t ∧ FaultRecorded s t k v

/-- The fourteen opcode bytes, as the table of `30_encoding.md` R66 lists them. -/
abbrev opcodeBytes : List Nat :=
  [0x00, 0x01, 0x82, 0x47, 0xA0, 0xA2, 0x45, 0x46, 0x50, 0x11, 0xA7, 0x54, 0x55, 0x56]

/-- The first check of the list of `60_exceptions.md` R147 that fails at `s`, with the information it
records; written from that list and the opcode bytes, without the decoder. -/
def firstFault (s : State) : Option (FaultKind × Nat) :=
  let pc := s.pc.toNat
  let op := (Memory.read s.mem pc).toNat
  let a := (Memory.read s.mem (pc + 1)).toNat
  let b := (Memory.read s.mem (pc + 2)).toNat
  if 256 ≤ pc then some (.outOfRange, pc)
  else if op ∉ opcodeBytes then some (.unknownOpcode, op)
  else if 1 ≤ op / 64 ∧ 256 ≤ pc + 1 then some (.outOfRange, pc + 1)
  else if 2 ≤ op / 64 ∧ 256 ≤ pc + 2 then some (.outOfRange, pc + 2)
  else if 1 ≤ op / 64 ∧ 8 ≤ a then some (.invalidRegister, a)
  else if op ∈ [0xA0, 0xA2, 0xA7] ∧ 8 ≤ b then some (.invalidRegister, b)
  else none

end Sys2Proof.Claims

section

open Sys2Proof Sys2Proof.Machine Sys2Proof.Claims

/-! ### Encoding -/

/-- The decoder reads exactly what the encoder writes: a list of bytes decodes to an instruction and
a rest when and only when it is that instruction's encoding followed by the rest. Rests on the
opcode map of `30_encoding.md` section 2 (the look-up of the whole byte is the spec's decision D1,
ten of its bytes are D2, assumption log 1). -/
def Obligations.DecodeIffEncoded : Prop :=
  ∀ (bs : List Byte) (i : Instr) (rest : List Byte),
    decode bs = .ok (i, rest) ↔ bs = encode i ++ rest

/-- The decoder refuses by name, and only what it should: a byte outside the opcode map is unknown
whatever follows it, an opcode with too few bytes after it lacks the next operand, any other list is
an instruction of the length the top two bits give. Rests on D1, D2 and D17 (assumption log 1). -/
def Obligations.DecoderRefusesByName : Prop :=
  decode [] = .error .noOpcode ∧
  ∀ (op : Byte) (rest : List Byte),
    (op.toNat ∉ opcodeBytes → decode (op :: rest) = .error (.unknownOpcode op)) ∧
    (op.toNat ∈ opcodeBytes → rest.length < op.toNat / 64 →
      decode (op :: rest) = .error (.missingOperand (rest.length + 1))) ∧
    (op.toNat ∈ opcodeBytes → op.toNat / 64 ≤ rest.length →
      ∃ i, decode (op :: rest) = .ok (i, rest.drop (op.toNat / 64)))

/-- `30_encoding.md` R62: the length of the instruction whose opcode byte is `op` is
`1 + op[7:6]`, and depends on the opcode byte alone. -/
def Obligations.LengthIsOnePlusTopTwoBits : Prop :=
  ∀ (op : Byte) (i : Instr) (rest : List Byte), encode i = op :: rest →
    instrLength op = 1 + op.toNat / 64 ∧ (encode i).length = 1 + op.toNat / 64

/-- The opcode map meets what the source fixes about it (`30_encoding.md` section 2, constraints (a)
to (d)): the count field is the operand count, the bytes are distinct (their selector fields too),
none is 0x20. The bytes are D2's (assumption log 1). -/
def Obligations.OpcodeMapMeetsTheConstraints : Prop :=
  opcodeMap.map (fun e => e.1.toNat) = opcodeBytes ∧ opcodeBytes.Nodup ∧ 0x20 ∉ opcodeBytes ∧
  (opcodeMap.map fun e => selector e.1).Nodup ∧
  ∀ i : Instr, ((encode i).headD 0).toNat / 64 + 1 = (encode i).length

/-- Words written out from the encodings of the spec decode to the instructions they stand for, one
of every family and one byte the source names as unknown (`95_test_vectors.md` sections 1 and 2).
The bytes 0xA2, 0x46, 0x50, 0xA7 and 0x56 are the spec's D2 (assumption log 1); 0x82, 0x47, 0x01 and
the unknown 0x20 are the source's. -/
def Obligations.SpecWordsDecode : Prop :=
  decode [0x82, 0x00, 0x08] = .ok (.ldi 0 8, []) ∧
  decode [0x47, 0x00] = .ok (.prn 0, []) ∧
  decode [0x01] = .ok (.hlt, []) ∧
  decode [0xA2, 0x00, 0x01] = .ok (.mul 0 1, []) ∧
  decode [0x46, 0x01] = .ok (.pop 1, []) ∧
  decode [0x50, 0x01] = .ok (.call 1, []) ∧
  decode [0xA7, 0x07, 0x00] = .ok (.cmp 7 0, []) ∧
  decode [0x56, 0x03] = .ok (.jne 3, []) ∧
  decode [0x20, 0x00, 0x01] = .error (.unknownOpcode 0x20)

/-! ### The primitives -/

/-- `10_state.md` R11: after `x[r] <- v` a read of `x[r]` returns `v mod 256`, for every register
index and every natural number; a read of any other register is not affected. -/
def Obligations.RegisterWriteWraps : Prop :=
  ∀ (s : State) (r : Reg) (v : Nat),
    (readReg (writeReg s r (trunc8 v)) r).toNat = v % 256 ∧
    RegsKeptBut r s (writeReg s r (trunc8 v))

/-- `20_memory.md` R41 and R42: `MemRead` and `MemWrite` raise `OutOfRange` at 256 and above;
below, a read answers the cell and changes nothing, a write puts `v mod 256` into its cell and
changes no other. -/
def Obligations.MemoryAccessIsBoundsChecked : Prop :=
  ∀ (s : State) (a v : Nat),
    (256 ≤ a → memRead s a = .error ⟨.outOfRange, a⟩ ∧
      memWrite s a (trunc8 v) = .error ⟨.outOfRange, a⟩) ∧
    (a < 256 → memRead s a = .ok (Memory.read s.mem a) ∧
      ∃ t, memWrite s a (trunc8 v) = .ok t ∧
        (Memory.read t.mem a).toNat = v % 256 ∧ MemKeptBut a s t ∧ RegsKept s t ∧
        t.fl = s.fl ∧ t.pc = s.pc ∧ t.out = s.out ∧ StatusKept s t)

/-- `40_engine.md` R90: the operations of the ALU on unsigned bytes. -/
def Obligations.AluOperations : Prop :=
  ∀ (u v : Byte) (pc : PcWord),
    (aluAdd u v).toNat = (u.toNat + v.toNat) % 256 ∧
    (aluMul u v).toNat = (u.toNat * v.toNat) % 256 ∧
    ((aluDec u).toNat : Int) = ((u.toNat : Int) - 1) % 256 ∧
    (aluInc u).toNat = (u.toNat + 1) % 256 ∧
    (aluReturnAddress pc).toNat = (pc.toNat + 2) % 256 ∧
    (compareFlags u v = ⟨true, false, false⟩ ↔ u.toNat < v.toNat) ∧
    (compareFlags u v = ⟨false, true, false⟩ ↔ v.toNat < u.toNat) ∧
    (compareFlags u v = ⟨false, false, true⟩ ↔ u = v)

/-! ### The step -/

/-- A step runs the decoded instruction: where the bytes at `pc` of a running engine decode to an
instruction, well formed or not, the step is `exec` of it at that very state, with nothing around it
(`40_engine.md` section 1). -/
def Obligations.StepRunsTheDecodedInstruction : Prop :=
  ∀ (s : State) (bs rest : List Byte) (i : Instr),
    Placed s bs → decode bs = .ok (i, rest) → step s = exec i s

/-- Phase 1 of `40_engine.md`: a fetch at `pc = 256` raises `OutOfRange(256)`. That `pc` reaches 256
instead of wrapping is the spec's D3, the form of the fault record its D10. -/
def Obligations.FetchAt256Faults : Prop :=
  ∀ s : State, s.run = .running → s.pc = 256 → StepFaults s .outOfRange 256

/-- Phase 2 of `40_engine.md`, `UnknownOpcode` of `60_exceptions.md`: a fetched byte that has no
entry in the dispatch table raises `UnknownOpcode(op)`, recorded with the `pc`, wherever it stands (at
255 too: no operand byte is read). 0x20 is such a byte. The look-up of the whole byte is the spec's D1,
the form of the fault record its D10. -/
def Obligations.UnknownOpcodeFaults : Prop :=
  dispatch 0x20 = none ∧
  ∀ (s : State) (op : Byte), Placed s [op] → dispatch op = none →
    StepFaults s .unknownOpcode op.toNat

/-- An operand byte that would lie at 256 raises `OutOfRange(256)`, before the register selectors
are looked at (the spec's D23, assumption log 4). That nothing wraps is its D3 (log 10), the fault
record D10 (log 16), ten of the opcode bytes D2 (log 1). -/
def Obligations.OperandBeyondMemoryFaults : Prop :=
  ∀ (s : State) (op : Byte), CutOff s op (op.toNat / 64) → op.toNat ∈ opcodeBytes →
    StepFaults s .outOfRange 256

/-- `InvalidRegister` of `60_exceptions.md`: the first register selector of 8..255, in the order of
the table, raises `InvalidRegister` before the instruction reads or writes anything, for JEQ and JNE
whether or not the jump would be taken (the spec's D12); an instruction whose selectors are all
legal raises nothing. That nothing else changes is D11, the form of the fault record D10 (assumption
logs 4 and 16). -/
def Obligations.InvalidRegisterFaults : Prop :=
  ∀ (i : Instr) (s : State),
    (∀ v : Byte, i.selectors.find? (fun b => 8 ≤ b.toNat) = some v →
      ∃ t, exec i s = .next t ∧ FaultEntered s t .invalidRegister v.toNat) ∧
    (i.selectors.find? (fun b => 8 ≤ b.toNat) = none →
      ∃ t, exec i s = .next t ∧ t.fault = s.fault ∧ (t.run = .faulted → s.run = .faulted))

/-- A step that faults changes only `RUN` and `FAULT` (the spec's D11, assumption log 4; the form of
the record is D10, log 16): whatever the fault, the rest of the state is that of the start of the
step. -/
def Obligations.FaultsArePrecise : Prop :=
  ∀ s t : State, step s = .next t → t.run = .faulted →
    ∃ k v, FaultEntered s t k v

/-- A step faults exactly when one of the six checks of `60_exceptions.md` section 3 fails, and
reports the first that does (the order is the spec's D12 and D23, that nothing else changes its D11,
assumption log 4; that pc does not wrap is D3, log 10; ten of the opcode bytes are D2, log 1; the
record is D10, log 16). -/
def Obligations.FirstFailedCheckDecides : Prop :=
  ∀ s : State, s.run = .running →
    (∀ k v, firstFault s = some (k, v) → ∃ t, step s = .next t ∧ FaultEntered s t k v) ∧
    (firstFault s = none → ∃ t, step s = .next t ∧ t.run ≠ .faulted ∧ t.fault = s.fault)

/-- The engine has a step exactly when `RUN` is Running (`40_engine.md` section 1; D16 and D21 of
`92_eei_decisions.md`). -/
def Obligations.EngineStepsExactlyWhenRunning : Prop :=
  ∀ s : State, (∃ t, step s = .next t) ↔ s.run = .running

/-- No return from a fault (`60_exceptions.md`; the status Faulted and its being terminal are the
spec's D9 and D21). A faulted engine has no step, letting
it run changes nothing, and a reset discards its state with everything else. -/
def Obligations.NoReturnFromAFault : Prop :=
  ∀ s : State, s.run = .faulted →
    (∀ t, step s ≠ .next t) ∧ (∀ k, runSteps k s = s) ∧
    ∀ (image : List Byte) (u : State), hostReset image s = hostReset image u

/-- The advance is by the whole instruction length, as a natural number: it never wraps
(`40_engine.md` section 1, phase 5; that `pc` does not wrap is the spec's D3, assumption log 10; the
opcode bytes of ADD, MUL, PUSH, POP and CMP are D2's, log 1). -/
def Obligations.AdvanceNeverWraps : Prop :=
  ∀ (s t : State) (op : Byte), Placed s [op] → step s = .next t → t.run = .running →
    op.toNat ∈ [0x00, 0x82, 0x47, 0xA0, 0xA2, 0x45, 0x46, 0xA7] →
    t.pc.toNat = s.pc.toNat + 1 + op.toNat / 64

/-! ### The instructions -/

/-- NOP (`41_machine_control.md`): it only advances; at 255 it completes and leaves `pc = 256`, and
the fetch there faults (the spec's D3, the fault record its D10). -/
def Obligations.NopOnlyAdvances : Prop :=
  ∀ s : State,
    (Placed s [0x00] → step s = exec .nop s) ∧
    (∃ t, exec .nop s = .next t ∧ t.pc = s.pc + 1 ∧ RegsKept s t ∧ MemKept s t ∧ t.fl = s.fl ∧
      t.out = s.out ∧ StatusKept s t) ∧
    (s.run = .running → s.pc = 256 → StepFaults s .outOfRange 256)

/-- HLT: `RUN` becomes Halted, `pc` keeps the address of the opcode byte (the spec's D24), nothing
else changes, and the engine has no further step however long it is let run (D21). -/
def Obligations.HltHalts : Prop :=
  ∀ s : State,
    (Placed s [0x01] → step s = exec .hlt s) ∧
    ∃ t, exec .hlt s = .next t ∧ t.run = .halted ∧ t.pc = s.pc ∧ RegsKept s t ∧ MemKept s t ∧
      t.fl = s.fl ∧ t.out = s.out ∧ t.fault = s.fault ∧
      (∀ u, step t ≠ .next u) ∧ ∀ k, runSteps k t = t

/-- LDI (`42_data_movement.md`): `x[a] <- b`, and PRN of the same register then emits that very
byte. That an operand byte at 256 faults instead of wrapping is the spec's D3 and D23, the fault
record its D10 (assumption logs 4, 10 and 16). -/
def Obligations.LdiLoadsItsImmediate : Prop :=
  ∀ (s : State) (a imm : Byte),
    (Placed s [0x82, a, imm] → step s = exec (.ldi a imm) s) ∧
    (∀ r : Reg, a.toNat = r.val →
      ∃ t, exec (.ldi a imm) s = .next t ∧ readReg t r = imm ∧ RegsKeptBut r s t ∧
        MemKept s t ∧ t.fl = s.fl ∧ t.out = s.out ∧ StatusKept s t ∧ t.pc = s.pc + 3 ∧
        ∃ u, exec (.prn a) t = .next u ∧ u.out = s.out ++ [imm]) ∧
    (8 ≤ a.toNat → ExecFaults (.ldi a imm) s .invalidRegister a.toNat) ∧
    (CutOff s 0x82 2 → StepFaults s .outOfRange 256)

/-- PRN (`42_data_movement.md`): the register goes to the end of the output, unchanged. That the
output is a list of bytes is the spec's D15; an operand byte at 256 faults by D3 and D23, the fault
record is D10 (assumption logs 4, 10, 16 and 17). -/
def Obligations.PrnEmitsItsRegister : Prop :=
  ∀ (s : State) (a : Byte),
    (Placed s [0x47, a] → step s = exec (.prn a) s) ∧
    (∀ r : Reg, a.toNat = r.val →
      ∃ t, exec (.prn a) s = .next t ∧ t.out = s.out ++ [readReg s r] ∧ RegsKept s t ∧
        MemKept s t ∧ t.fl = s.fl ∧ StatusKept s t ∧ t.pc = s.pc + 2) ∧
    (8 ≤ a.toNat →
      ∃ t, exec (.prn a) s = .next t ∧ FaultRecorded s t .invalidRegister a.toNat ∧
        t.out = s.out) ∧
    (CutOff s 0x47 1 → StepFaults s .outOfRange 256)

/-- ADD (`43_arithmetic.md`): the sum modulo 256, no flag. The opcode byte is D2's (assumption log
1), the order of the checks D12 and D23 (log 4), that nothing wraps at 256 D3 (log 10), the fault
record D10 (log 16). -/
def Obligations.AddAddsModulo256 : Prop :=
  ∀ (s : State) (a b : Byte),
    (Placed s [0xA0, a, b] → step s = exec (.add a b) s) ∧
    (∀ r q : Reg, a.toNat = r.val → b.toNat = q.val →
      ∃ t, exec (.add a b) s = .next t ∧
        (readReg t r).toNat = ((readReg s r).toNat + (readReg s q).toNat) % 256 ∧
        RegsKeptBut r s t ∧ MemKept s t ∧ t.fl = s.fl ∧ t.out = s.out ∧ StatusKept s t ∧
        t.pc = s.pc + 3) ∧
    (8 ≤ a.toNat → ExecFaults (.add a b) s .invalidRegister a.toNat) ∧
    (a.toNat < 8 → 8 ≤ b.toNat → ExecFaults (.add a b) s .invalidRegister b.toNat) ∧
    (CutOff s 0xA0 2 → StepFaults s .outOfRange 256)

/-- MUL (`43_arithmetic.md`): the low byte of the product, no flag. The opcode byte is D2's
(assumption log 1), the order of the checks D12 and D23 (log 4), that nothing wraps at 256 D3 (log
10), the fault record D10 (log 16). -/
def Obligations.MulMultipliesModulo256 : Prop :=
  ∀ (s : State) (a b : Byte),
    (Placed s [0xA2, a, b] → step s = exec (.mul a b) s) ∧
    (∀ r q : Reg, a.toNat = r.val → b.toNat = q.val →
      ∃ t, exec (.mul a b) s = .next t ∧
        (readReg t r).toNat = ((readReg s r).toNat * (readReg s q).toNat) % 256 ∧
        RegsKeptBut r s t ∧ MemKept s t ∧ t.fl = s.fl ∧ t.out = s.out ∧ StatusKept s t ∧
        t.pc = s.pc + 3) ∧
    (8 ≤ a.toNat → ExecFaults (.mul a b) s .invalidRegister a.toNat) ∧
    (a.toNat < 8 → 8 ≤ b.toNat → ExecFaults (.mul a b) s .invalidRegister b.toNat) ∧
    (CutOff s 0xA2 2 → StepFaults s .outOfRange 256)

/-- PUSH (`44_stack.md`): decrement, then write at the decremented pointer; the byte stored is the
register read after the decrement, so PUSH R7 stores the decremented pointer (the spec's D19,
assumption log 4). The opcode byte is D2's (assumption log 1), the order of the checks D12 and D23
(log 4), that nothing wraps at 256 D3 (log 10), the fault record D10 (log 16). -/
def Obligations.PushDecrementsThenStores : Prop :=
  ∀ (s : State) (a : Byte),
    (Placed s [0x45, a] → step s = exec (.push a) s) ∧
    (∀ r : Reg, a.toNat = r.val →
      ∃ t, exec (.push a) s = .next t ∧ readReg t 7 = readReg s 7 - 1 ∧ RegsKeptBut 7 s t ∧
        pushAddress s = (readReg s 7 - 1).toNat ∧
        Memory.read t.mem (pushAddress s) = readReg t r ∧ MemKeptBut (pushAddress s) s t ∧
        t.fl = s.fl ∧ t.out = s.out ∧ StatusKept s t ∧ t.pc = s.pc + 2) ∧
    (8 ≤ a.toNat → ExecFaults (.push a) s .invalidRegister a.toNat) ∧
    (CutOff s 0x45 1 → StepFaults s .outOfRange 256)

/-- POP (`44_stack.md`): read at the pointer, then increment; POP R7 leaves the popped byte plus one
(the spec's D19, assumption log 4). The opcode byte is D2's (assumption log 1), the order of the
checks D12 and D23 (log 4), that nothing wraps at 256 D3 (log 10), the fault record D10 (log 16). -/
def Obligations.PopLoadsThenIncrements : Prop :=
  ∀ (s : State) (a : Byte),
    (Placed s [0x46, a] → step s = exec (.pop a) s) ∧
    (∀ r : Reg, a.toNat = r.val →
      ∃ t, exec (.pop a) s = .next t ∧
        (r ≠ 7 → readReg t r = Memory.read s.mem (readReg s 7).toNat ∧
          readReg t 7 = readReg s 7 + 1) ∧
        (r = 7 → readReg t 7 = Memory.read s.mem (readReg s 7).toNat + 1) ∧
        (∀ q : Reg, q ≠ r → q ≠ 7 → readReg t q = readReg s q) ∧
        MemKept s t ∧ t.fl = s.fl ∧ t.out = s.out ∧ StatusKept s t ∧ t.pc = s.pc + 2) ∧
    (8 ≤ a.toNat → ExecFaults (.pop a) s .invalidRegister a.toNat) ∧
    (CutOff s 0x46 1 → StepFaults s .outOfRange 256)

/-- CALL (`45_subroutine.md`): the return address `(pc + 2) mod 256` is written at the pointer
BEFORE the decrement (the spec's D13), then the pointer is decremented, then `pc` takes the
register, read after the decrement (D19, assumption log 4). The opcode byte is D2's (assumption log
1), the order of the checks D12 and D23 (log 4), that nothing wraps at 256 D3 (log 10), the fault
record D10 (log 16). -/
def Obligations.CallStoresThenDecrements : Prop :=
  ∀ (s : State) (a : Byte),
    (Placed s [0x50, a] → step s = exec (.call a) s) ∧
    (∀ r : Reg, a.toNat = r.val →
      ∃ t, exec (.call a) s = .next t ∧ callAddress s = (readReg s 7).toNat ∧
        (Memory.read t.mem (callAddress s)).toNat = (s.pc.toNat + 2) % 256 ∧
        MemKeptBut (callAddress s) s t ∧ readReg t 7 = readReg s 7 - 1 ∧ RegsKeptBut 7 s t ∧
        t.pc.toNat = (readReg t r).toNat ∧ t.fl = s.fl ∧ t.out = s.out ∧ StatusKept s t) ∧
    (8 ≤ a.toNat → ExecFaults (.call a) s .invalidRegister a.toNat) ∧
    (CutOff s 0x50 1 → StepFaults s .outOfRange 256)

/-- RET (`45_subroutine.md`): increment, then `pc` takes the byte at the incremented pointer (the
spec's D13, assumption log 4). The opcode byte is D2's. -/
def Obligations.RetIncrementsThenLoads : Prop :=
  ∀ s : State,
    (Placed s [0x11] → step s = exec .ret s) ∧
    ∃ t, exec .ret s = .next t ∧ readReg t 7 = readReg s 7 + 1 ∧ RegsKeptBut 7 s t ∧
      t.pc.toNat = (Memory.read s.mem (readReg s 7 + 1).toNat).toNat ∧ MemKept s t ∧
      t.fl = s.fl ∧ t.out = s.out ∧ StatusKept s t

/-- CMP (`46_compare.md`): exactly one flag, by the unsigned order, replacing all three: the
intended semantics, by the source's own ruling (D14, assumption log 17). The opcode byte is D2's
(assumption log 1), the order of the checks D12 and D23 (log 4), that nothing wraps at 256 D3 (log
10), the fault record D10 (log 16). -/
def Obligations.CmpSetsExactlyOneFlag : Prop :=
  ∀ (s : State) (a b : Byte),
    (Placed s [0xA7, a, b] → step s = exec (.cmp a b) s) ∧
    (∀ r q : Reg, a.toNat = r.val → b.toNat = q.val →
      ∃ t, exec (.cmp a b) s = .next t ∧
        ((readReg s r).toNat < (readReg s q).toNat → t.fl = ⟨true, false, false⟩) ∧
        ((readReg s q).toNat < (readReg s r).toNat → t.fl = ⟨false, true, false⟩) ∧
        (readReg s r = readReg s q → t.fl = ⟨false, false, true⟩) ∧
        RegsKept s t ∧ MemKept s t ∧ t.out = s.out ∧ StatusKept s t ∧ t.pc = s.pc + 3) ∧
    (8 ≤ a.toNat →
      ∃ t, exec (.cmp a b) s = .next t ∧ FaultRecorded s t .invalidRegister a.toNat ∧
        t.fl = s.fl) ∧
    (a.toNat < 8 → 8 ≤ b.toNat →
      ∃ t, exec (.cmp a b) s = .next t ∧ FaultRecorded s t .invalidRegister b.toNat ∧
        t.fl = s.fl) ∧
    (CutOff s 0xA7 2 → StepFaults s .outOfRange 256)

/-- JMP (`47_jumps.md`): `pc` takes the register. The opcode byte is D2's (assumption log 1), the
order of the checks D12 and D23 (log 4), that nothing wraps at 256 D3 (log 10), the fault record D10
(log 16). -/
def Obligations.JmpGoesToItsRegister : Prop :=
  ∀ (s : State) (a : Byte),
    (Placed s [0x54, a] → step s = exec (.jmp a) s) ∧
    (∀ r : Reg, a.toNat = r.val →
      ∃ t, exec (.jmp a) s = .next t ∧ t.pc.toNat = (readReg s r).toNat ∧ RegsKept s t ∧
        MemKept s t ∧ t.fl = s.fl ∧ t.out = s.out ∧ StatusKept s t) ∧
    (8 ≤ a.toNat → ExecFaults (.jmp a) s .invalidRegister a.toNat) ∧
    (CutOff s 0x54 1 → StepFaults s .outOfRange 256)

/-- JEQ (`47_jumps.md`): taken exactly when `FL.E` is set; the register check comes first either way
(the spec's D12, assumption log 4). The opcode byte is D2's (assumption log 1), the order of the
checks D12 and D23 (log 4), that nothing wraps at 256 D3 (log 10), the fault record D10 (log 16). -/
def Obligations.JeqJumpsWhenEqual : Prop :=
  ∀ (s : State) (a : Byte),
    (Placed s [0x55, a] → step s = exec (.jeq a) s) ∧
    (∀ r : Reg, a.toNat = r.val →
      ∃ t, exec (.jeq a) s = .next t ∧
        (s.fl.e = true → t.pc.toNat = (readReg s r).toNat) ∧
        (s.fl.e = false → t.pc = s.pc + 2) ∧
        RegsKept s t ∧ MemKept s t ∧ t.fl = s.fl ∧ t.out = s.out ∧ StatusKept s t) ∧
    (8 ≤ a.toNat → ExecFaults (.jeq a) s .invalidRegister a.toNat) ∧
    (CutOff s 0x55 1 → StepFaults s .outOfRange 256)

/-- JNE (`47_jumps.md`): taken exactly when `FL.E` is clear, L and G playing no part; the register
check comes first either way (the spec's D12, assumption log 4). The opcode byte is D2's (assumption
log 1), the order of the checks D12 and D23 (log 4), that nothing wraps at 256 D3 (log 10), the
fault record D10 (log 16). -/
def Obligations.JneJumpsWhenNotEqual : Prop :=
  ∀ (s : State) (a : Byte),
    (Placed s [0x56, a] → step s = exec (.jne a) s) ∧
    (∀ r : Reg, a.toNat = r.val →
      ∃ t, exec (.jne a) s = .next t ∧
        (s.fl.e = false → t.pc.toNat = (readReg s r).toNat) ∧
        (s.fl.e = true → t.pc = s.pc + 2) ∧
        RegsKept s t ∧ MemKept s t ∧ t.fl = s.fl ∧ t.out = s.out ∧ StatusKept s t) ∧
    (8 ≤ a.toNat → ExecFaults (.jne a) s .invalidRegister a.toNat) ∧
    (CutOff s 0x56 1 → StepFaults s .outOfRange 256)

/-! ### Pairs of instructions -/

/-- PUSH r then POP q, neither of them R7 (`44_stack.md` section on the stack discipline): `x[q]`
receives `x[r]`, the pointer is back, `pc` is greater by 4, and the one lasting effect besides is the
pushed byte in its cell. With `q = r` it is the round trip. -/
def Obligations.PushPopMovesARegister : Prop :=
  ∀ (s : State) (a b : Byte) (r q : Reg), a.toNat = r.val → b.toNat = q.val → r ≠ 7 → q ≠ 7 →
    ∃ t u, exec (.push a) s = .next t ∧ exec (.pop b) t = .next u ∧
      readReg u q = readReg s r ∧ RegsKeptBut q s u ∧ u.pc = s.pc + 4 ∧
      Memory.read u.mem (readReg s 7 - 1).toNat = readReg s r ∧
      MemKeptBut (pushAddress s) s u ∧ u.fl = s.fl ∧ u.out = s.out ∧ StatusKept s u

/-- CALL and RET are inverse (`45_subroutine.md`, the discipline of CALL and RET; D13 and D19 of
`92_eei_decisions.md`): from whatever state has the pointer CALL left and the return address
undisturbed, RET resumes at the byte after the CALL and restores the pointer. -/
def Obligations.RetUndoesCall : Prop :=
  ∀ (s t u : State) (a : Byte) (r : Reg), a.toNat = r.val → exec (.call a) s = .next t →
    readReg u 7 = readReg t 7 →
    Memory.read u.mem (callAddress s) = Memory.read t.mem (callAddress s) →
    ∃ v, exec .ret u = .next v ∧ v.pc.toNat = (s.pc.toNat + 2) % 256 ∧
      readReg v 7 = readReg s 7

/-- CALL overwrites the byte a PUSH has just stored (`70_reset_and_hazards.md` section 4; the
spec's D13, assumption log 4). -/
def Obligations.CallOverwritesThePushedByte : Prop :=
  ∀ (s : State) (a b : Byte) (r q : Reg), a.toNat = r.val → b.toNat = q.val →
    ∃ t u, exec (.push a) s = .next t ∧ exec (.call b) t = .next u ∧
      Memory.read t.mem (pushAddress s) = readReg t r ∧
      (Memory.read u.mem (pushAddress s)).toNat = (s.pc + 2 + 2).toNat % 256

/-- A byte stored where the next fetch reads is what the next step decodes
(`20_memory.md` section 10): PUSH into the cell at `pc + 2` of a byte that begins an instruction of
one byte runs that instruction next. The opcode byte of PUSH is D2's. -/
def Obligations.PushedByteIsFetchedNext : Prop :=
  ∀ (s : State) (a : Byte) (r : Reg) (i : Instr),
    Placed s [0x45, a] → a.toNat = r.val → r ≠ 7 → s.pc.toNat + 2 < 256 →
    (readReg s 7 - 1).toNat = s.pc.toNat + 2 → decode [readReg s r] = .ok (i, []) →
    ∃ t, step s = .next t ∧ t.pc.toNat = s.pc.toNat + 2 ∧ step t = exec i t

/-- A JMP to itself never ends (`70_reset_and_hazards.md` section 4): however many steps are taken,
the state is the same. The opcode byte is D2's. That a program that loops runs forever is also the
spec's D26. -/
def Obligations.JumpToItselfNeverEnds : Prop :=
  ∀ (s : State) (a : Byte) (r : Reg), Placed s [0x54, a] → a.toNat = r.val →
    (readReg s r).toNat = s.pc.toNat → ∀ k, runSteps k s = s

/-- Running off the end (`70_reset_and_hazards.md` section 4; the spec's D26 and D3, the fault
record its D10): where every cell from `pc` to 255 is zero, the engine executes NOPs up to `pc =
256` and the next step faults; nothing wraps to address 0. -/
def Obligations.ZerosRunOffTheEnd : Prop :=
  ∀ s : State, s.run = .running → s.pc.toNat ≤ 256 →
    (∀ a, s.pc.toNat ≤ a → a < 256 → Memory.read s.mem a = 0) →
    ∃ t, runSteps (257 - s.pc.toNat) s = t ∧ t.run = .faulted ∧ t.pc.toNat = 256 ∧
      t.fault = some { kind := .outOfRange, pc := 256, info := 256 } ∧
      RegsKept s t ∧ MemKept s t ∧ t.fl = s.fl ∧ t.out = s.out

/-! ### The whole machine -/

/-- `10_state.md` R18: CMP is the only instruction that writes `FL`, and writes all of it; JEQ and
JNE are the only ones that read it, and read `FL.E` alone. -/
def Obligations.OnlyCmpWritesFlags : Prop :=
  ∀ (i : Instr) (s t : State), exec i s = .next t →
    ((∀ a b, i ≠ .cmp a b) → t.fl = s.fl) ∧
    ∀ f : Flags, (∀ a, i = .jeq a ∨ i = .jne a → f.e = s.fl.e) →
      ∃ u, exec i { s with fl := f } = .next u ∧ { u with fl := t.fl } = t ∧
        (∀ a b, i = .cmp a b → i.wellFormed = true → u.fl = t.fl)

/-- PUSH and CALL are the only instructions that write memory, and each writes one cell, the one its
address function gives (`20_memory.md` section 3). -/
def Obligations.OnlyPushAndCallStore : Prop :=
  ∀ (i : Instr) (s t : State), exec i s = .next t → ∀ c,
    Memory.read t.mem c ≠ Memory.read s.mem c →
    (∃ a, i = .push a ∧ c = pushAddress s) ∨ (∃ a, i = .call a ∧ c = callAddress s)

/-- The output only grows, by one byte and by PRN alone, and nothing reads it (`10_state.md` section
7; the spec's D15). -/
def Obligations.OutputOnlyGrowsByPrn : Prop :=
  ∀ (i : Instr) (s t : State), exec i s = .next t →
    ∃ w : List Byte, t.out = s.out ++ w ∧
      (w ≠ [] → ∃ (a : Byte) (r : Reg), i = .prn a ∧ a.toNat = r.val ∧ w = [readReg s r]) ∧
      ∀ o : List Byte, exec i { s with out := o } = .next { t with out := o ++ w }

/-- A run ends cleanly by HLT and by nothing else (`70_reset_and_hazards.md` section 3): the engine
is Halted after a step exactly when the byte at `pc` was the opcode of HLT, and then `pc` is still
its address (D24). That Halted is apart from Faulted is D9 (assumption log 16). -/
def Obligations.OnlyHltHalts : Prop :=
  ∀ s t : State, step s = .next t →
    (t.run = .halted ↔ s.pc.toNat < 256 ∧ Memory.read s.mem s.pc.toNat = 0x01) ∧
    (t.run = .halted → t.pc = s.pc ∧ t.fault = s.fault)

/-- A run that has ended stays as it is: letting the engine run on after the end changes nothing
(`40_engine.md` section 1, `70_reset_and_hazards.md` section 3; D21). -/
def Obligations.EndedRunStaysEnded : Prop :=
  ∀ (s : State) (k j : Nat), Ended (runSteps k s) → runSteps (k + j) s = runSteps k s

/-! ### Invariants -/

/-- Every step keeps the machine's invariant: the memory is canonical, `pc` is at most 256, at most
one flag is set, and the fault record fits the run status (`10_state.md`; the bound of `pc` is the
spec's D3, the fault record its D10, the absent fourth kind its D18). -/
def Obligations.StepKeepsTheInvariant : Prop :=
  ∀ s t : State, Inv s → step s = .next t → Inv t

/-- The state after reset meets the invariant. Its pc, flags and fault record at reset are the
spec's D8, D5 and D10 (assumption log 2). -/
def Obligations.ResetMeetsTheInvariant : Prop := Inv State.reset

/-- Every state of every run, from reset with any image, meets the invariant: a corollary of
StepKeepsTheInvariant and the reset case. The bound of `pc` is the spec's D3 (assumption log 10),
the fault record its D10 (log 16), the absent fourth kind its D18 (log 12), the image of at most 256
bytes its D20 (log 17). -/
def Obligations.ReachableStatesMeetTheInvariant : Prop :=
  ∀ s : State, Reachable s → Inv s

/-- Once a CMP has completed, exactly one flag is set, and stays so (`10_state.md`, the invariant of
`FL`; the opcode byte of CMP is D2's). -/
def Obligations.OneFlagStaysSet : Prop :=
  ∀ s t : State, step s = .next t →
    (ExactlyOneFlag s.fl → ExactlyOneFlag t.fl) ∧
    (Placed s [0xA7] → t.run ≠ .faulted → ExactlyOneFlag t.fl)

/-! ### Reset and the host -/

/-- `10_state.md` R27 and R31: after reset `x[7]` is 0xF4 and `RUN` is Running, with whatever
image. -/
def Obligations.ResetSetsStackPointerAndRuns : Prop :=
  readReg State.reset 7 = 0xF4 ∧ State.reset.run = .running ∧
  ∀ (image : List Byte) (s t : State), hostReset image s = .next t →
    readReg t 7 = 0xF4 ∧ t.run = .running

/-- The other reset values, each the spec's own decision (D5, D6, D7, D8, D10 and D15 of
`92_eei_decisions.md`, assumption log 2). -/
def Obligations.ResetClearsTheRest : Prop :=
  (∀ r : Reg, r ≠ 7 → readReg State.reset r = 0) ∧ State.reset.pc = 0 ∧
  State.reset.fl = ⟨false, false, false⟩ ∧ State.reset.fault = none ∧
  (∀ a, Memory.read State.reset.mem a = 0) ∧ State.reset.out = []

/-- Reset with an image of at most 256 bytes, in any state, loads it from address 0 upward, leaves 0
in every other cell, and gives everything else its reset value; a longer image is refused
(`70_reset_and_hazards.md` section 1; D7, D20 and D21). -/
def Obligations.HostResetLoadsTheImage : Prop :=
  ∀ (image : List Byte) (s : State),
    (image.length ≤ 256 →
      ∃ t, hostReset image s = .next t ∧
        (∀ j (h : j < image.length), Memory.read t.mem j = image[j]) ∧
        (∀ a, image.length ≤ a → Memory.read t.mem a = 0) ∧
        t = { State.reset with mem := t.mem }) ∧
    (256 < image.length → hostReset image s = .refused .imageTooLong)

/-- The host reads the status and the output at any time, the final state only when the run has
ended (`70_reset_and_hazards.md` section 3; D22; the byte form of `FL` is D4). -/
def Obligations.HostReadsTheFinalStateOnlyAtTheEnd : Prop :=
  ∀ s : State,
    hostReadStatus s = (s.run, s.fault) ∧ hostReadOut s = s.out ∧
    (s.run = .running → hostReadFinal s = none) ∧
    (Ended s → ∃ v, hostReadFinal s = some v ∧ v.regs = s.regs ∧ v.pc = s.pc ∧ v.mem = s.mem ∧
      v.fl.toNat = (if s.fl.l then 4 else 0) + (if s.fl.g then 2 else 0) +
        (if s.fl.e then 1 else 0))

end
end

