-- ==== Sys2Proof/Laws/Decode.lean ====
section
/-! SUPPORT. What the dispatcher and the length decoder answer. -/

namespace Sys2Proof

/-- The `N` field as arithmetic (`30_encoding.md` R61). -/
theorem operandCount_eq (op : Byte) : operandCount op = op.toNat / 64 := by
  have h : op.toNat / 64 < 4 := by omega
  simp [operandCount, BitVec.extractLsb', Nat.shiftRight_eq_div_pow]
  omega

theorem selectorLegal_iff (b : Byte) : selectorLegal b = true ↔ b.toNat < 8 := by
  simp [selectorLegal]

/-- What the dispatcher selects is a row of the opcode map. -/
theorem dispatch_mem {op : Byte} {build : Byte → Byte → Instr} (h : dispatch op = some build) :
    (op, build) ∈ opcodeMap := by
  obtain ⟨l, r, hl, _⟩ := List.lookup_eq_some_iff.mp h
  rw [hl]
  simp

/-- A byte is unknown to the dispatcher exactly when no row of the opcode map has it
(`30_encoding.md` R68). -/
theorem dispatch_none_iff (op : Byte) : dispatch op = none ↔ op ∉ opcodeMap.map Prod.fst := by
  rw [dispatch, List.lookup_eq_none_iff]
  simp [opcodeMap]

/-- The fourteen opcode bytes as numbers (`30_encoding.md` R66). -/
theorem opcodeMap_bytes :
    opcodeMap.map (fun e => e.1.toNat) =
      [0x00, 0x01, 0x82, 0x47, 0xA0, 0xA2, 0x45, 0x46, 0x50, 0x11, 0xA7, 0x54, 0x55, 0x56] := rfl

/-- The dispatcher knows a byte exactly when its value is one of the map's. -/
theorem dispatch_some_iff (op : Byte) :
    (∃ build, dispatch op = some build) ↔ op.toNat ∈ opcodeMap.map fun e => e.1.toNat := by
  rw [← Option.ne_none_iff_exists', Ne, dispatch_none_iff, not_not, List.mem_map, List.mem_map]
  constructor
  · rintro ⟨e, he, rfl⟩
    exact ⟨e, he, rfl⟩
  · rintro ⟨e, he, h⟩
    exact ⟨e, he, BitVec.eq_of_toNat_eq h⟩

/-- What holds of every row of the opcode map holds of what the dispatcher selects. -/
theorem dispatch_forall {P : Byte → (Byte → Byte → Instr) → Prop}
    (h : ∀ e ∈ opcodeMap, P e.1 e.2) {op : Byte} {build : Byte → Byte → Instr}
    (hd : dispatch op = some build) : P op build :=
  h _ (dispatch_mem hd)

/-- An opcode byte has at most two operand bytes (`30_encoding.md` R69). -/
theorem operandCount_le_two {op : Byte} {build : Byte → Byte → Instr}
    (hd : dispatch op = some build) : operandCount op ≤ 2 :=
  dispatch_forall (P := fun op _ => operandCount op ≤ 2) (by simp [opcodeMap]; decide) hd

/-- The selected instruction is encoded by that opcode byte and the operand bytes its `N` field
counts (`30_encoding.md` R60, R69). -/
theorem encode_of_dispatch {op : Byte} {build : Byte → Byte → Instr}
    (hd : dispatch op = some build) (a b : Byte) :
    encode (build a b) = op :: [a, b].take (operandCount op) :=
  dispatch_forall
    (P := fun op build => ∀ a b, encode (build a b) = op :: [a, b].take (operandCount op))
    (by simp only [opcodeMap, List.forall_mem_cons]
        exact ⟨fun _ _ => rfl, fun _ _ => rfl, fun _ _ => rfl, fun _ _ => rfl, fun _ _ => rfl,
          fun _ _ => rfl, fun _ _ => rfl, fun _ _ => rfl, fun _ _ => rfl, fun _ _ => rfl,
          fun _ _ => rfl, fun _ _ => rfl, fun _ _ => rfl, fun _ _ => rfl, by simp⟩)
    hd a b

/-- The opcode byte of an instruction selects it, whatever the operand bytes it has no use for. -/
theorem dispatch_of_encode (i : Instr) :
    ∃ op rest build, encode i = op :: rest ∧ dispatch op = some build ∧
      rest.length = operandCount op ∧ build (rest.getD 0 0) (rest.getD 1 0) = i := by
  cases i <;> exact ⟨_, _, _, rfl, rfl, rfl, rfl⟩

end Sys2Proof
end

