-- ==== Sys2Proof/Laws/Memory.lean ====
section
/-! SUPPORT. The laws of memory: a read after a write, in every memory whether or not it is in
canonical form, and that every operation keeps the canonical form. -/

namespace Sys2Proof.Machine

@[simp] theorem Memory.read_nil (a : Nat) : Memory.read [] a = Memory.unlisted := rfl

theorem Memory.read_cons (c : Host.Cell) (m : Memory) (a : Nat) :
    Memory.read (c :: m) a = if c.1 = a then c.2 else Memory.read m a := rfl

/-! ### A read after a write -/

theorem Memory.read_erase_same (m : Memory) (a : Nat) :
    Memory.read (Memory.erase m a) a = Memory.unlisted := by
  induction m with
  | nil => rfl
  | cons c m ih =>
    by_cases h : c.1 = a
    · simpa [Memory.erase, h] using ih
    · simpa [Memory.erase, h, Memory.read_cons] using ih

theorem Memory.read_erase_ne (m : Memory) {a b : Nat} (hb : b ≠ a) :
    Memory.read (Memory.erase m a) b = Memory.read m b := by
  induction m with
  | nil => rfl
  | cons c m ih =>
    by_cases h : c.1 = a
    · have hcb : c.1 ≠ b := fun e => hb (e.symm.trans h)
      simpa [Memory.erase, h, Memory.read_cons, hcb, hb.symm] using ih
    · simp only [Memory.erase] at ih
      simp [Memory.erase, h, Memory.read_cons, ih]

theorem Memory.read_insert_ne (m : Memory) {a b : Nat} (v : Byte) (hb : b ≠ a) :
    Memory.read (Memory.insert m a v) b = Memory.read m b := by
  induction m with
  | nil => simp [Memory.insert, Memory.read_cons, hb.symm]
  | cons c m ih =>
    rw [Memory.insert]
    split
    · simp [Memory.read_cons, hb.symm]
    · simp [Memory.read_cons, ih]

theorem Memory.read_insert_same (m : Memory) {a : Nat} (v : Byte) (h : ∀ c ∈ m, c.1 ≠ a) :
    Memory.read (Memory.insert m a v) a = v := by
  induction m with
  | nil => simp [Memory.insert, Memory.read_cons]
  | cons c m ih =>
    rw [Memory.insert]
    split
    · simp [Memory.read_cons]
    · have hc := h c (List.mem_cons_self ..)
      simpa [Memory.read_cons, hc] using ih fun d hd => h d (List.mem_cons_of_mem _ hd)

theorem Memory.erase_no_entry (m : Memory) (a : Nat) : ∀ c ∈ Memory.erase m a, c.1 ≠ a := by
  intro c hc
  simpa using (List.mem_filter.mp hc).2

/-- A read of the cell just written gives the value written. -/
@[simp] theorem Memory.read_write_same (m : Memory) (a : Nat) (v : Byte) :
    Memory.read (Memory.write m a v) a = v := by
  rw [Memory.write]
  split
  · next h => rw [Memory.read_erase_same, h]
  · exact Memory.read_insert_same _ v (Memory.erase_no_entry m a)

/-- A write leaves every other cell alone. -/
theorem Memory.read_write_ne (m : Memory) {a b : Nat} (v : Byte) (hb : b ≠ a) :
    Memory.read (Memory.write m a v) b = Memory.read m b := by
  rw [Memory.write]
  split
  · exact Memory.read_erase_ne m hb
  · rw [Memory.read_insert_ne _ v hb, Memory.read_erase_ne m hb]

/-! ### The canonical form -/

/-- The canonical form as a proposition. -/
theorem Memory.wf_iff (m : Memory) :
    Memory.wf m = true ↔
      m.Pairwise (fun c d => c.1 < d.1) ∧ ∀ c ∈ m, c.1 < 256 ∧ c.2 ≠ Memory.unlisted := by
  simp [Memory.wf]

theorem Memory.wf_nil : Memory.wf [] = true := by decide

theorem Memory.erase_keeps_wf {m : Memory} (h : Memory.wf m = true) (a : Nat) :
    Memory.wf (Memory.erase m a) = true := by
  rw [Memory.wf_iff] at h ⊢
  exact ⟨h.1.filter _, fun c hc => h.2 c (List.mem_filter.mp hc).1⟩

theorem Memory.mem_insert {m : Memory} {a : Nat} {v : Byte} {c : Host.Cell}
    (h : c ∈ Memory.insert m a v) : c = (a, v) ∨ c ∈ m := by
  induction m with
  | nil => simpa [Memory.insert] using h
  | cons d m ih =>
    rw [Memory.insert] at h
    split at h
    · simpa using h
    · rcases List.mem_cons.mp h with h | h
      · exact .inr (h ▸ List.mem_cons_self ..)
      · exact (ih h).imp_right (List.mem_cons_of_mem _)

theorem Memory.insert_pairwise {m : Memory} {a : Nat} (v : Byte)
    (h : m.Pairwise fun c d => c.1 < d.1) (ha : ∀ c ∈ m, c.1 ≠ a) :
    (Memory.insert m a v).Pairwise fun c d => c.1 < d.1 := by
  induction m with
  | nil => simp [Memory.insert]
  | cons d m ih =>
    have ⟨hd, hm⟩ := List.pairwise_cons.mp h
    rw [Memory.insert]
    split
    · next hlt =>
      refine List.pairwise_cons.mpr ⟨fun c hc => ?_, h⟩
      rcases List.mem_cons.mp hc with rfl | hc
      · exact hlt
      · exact Nat.lt_trans hlt (hd c hc)
    · next hge =>
      refine List.pairwise_cons.mpr
        ⟨fun c hc => ?_, ih hm fun c hc => ha c (List.mem_cons_of_mem _ hc)⟩
      rcases Memory.mem_insert hc with rfl | hc
      · have := ha d (List.mem_cons_self ..)
        simp only
        omega
      · exact hd c hc

/-- A write to one of the 256 cells keeps the canonical form. -/
theorem Memory.write_keeps_wf {m : Memory} (h : Memory.wf m = true) {a : Nat} (ha : a < 256)
    (v : Byte) : Memory.wf (Memory.write m a v) = true := by
  have he := Memory.erase_keeps_wf h a
  rw [Memory.write]
  split
  · exact he
  · next hv =>
    rw [Memory.wf_iff] at he ⊢
    refine ⟨Memory.insert_pairwise v he.1 (Memory.erase_no_entry m a), fun c hc => ?_⟩
    rcases Memory.mem_insert hc with rfl | hc
    · exact ⟨ha, hv⟩
    · exact he.2 c hc

/-- Writing a list of bytes keeps the canonical form. -/
theorem Memory.writeList_keeps_wf {m : Memory} (h : Memory.wf m = true) (a : Nat)
    (bs : List Byte) : Memory.wf (Memory.writeList m a bs) = true := by
  induction bs generalizing m a with
  | nil => exact h
  | cons v vs ih =>
    rw [Memory.writeList]
    split
    · next ha => exact ih (Memory.write_keeps_wf h ha v) _
    · exact ih h _

/-! ### Reading after a list of bytes was written -/

/-- A cell below the first one written is unchanged. -/
theorem Memory.read_writeList_below (m : Memory) (a : Nat) (bs : List Byte) {b : Nat}
    (hb : b < a) : Memory.read (Memory.writeList m a bs) b = Memory.read m b := by
  induction bs generalizing m a with
  | nil => rfl
  | cons v vs ih =>
    rw [Memory.writeList, ih _ _ (by omega)]
    split
    · exact Memory.read_write_ne m v (by omega)
    · rfl

/-- A cell above the last one written is unchanged. -/
theorem Memory.read_writeList_above (m : Memory) (a : Nat) (bs : List Byte) {b : Nat}
    (hb : a + bs.length ≤ b) : Memory.read (Memory.writeList m a bs) b = Memory.read m b := by
  induction bs generalizing m a with
  | nil => rfl
  | cons v vs ih =>
    simp only [List.length_cons] at hb
    rw [Memory.writeList, ih _ _ (by omega)]
    split
    · exact Memory.read_write_ne m v (by omega)
    · rfl

/-- The cells written hold the bytes of the list. -/
theorem Memory.read_writeList_inside (m : Memory) (a : Nat) (bs : List Byte) {k : Nat}
    (hk : k < bs.length) (ha : a + k < 256) :
    Memory.read (Memory.writeList m a bs) (a + k) = bs[k] := by
  induction bs generalizing m a k with
  | nil => simp at hk
  | cons v vs ih =>
    cases k with
    | zero =>
      rw [Memory.writeList, Memory.read_writeList_below _ _ _ (by omega)]
      simp only [Nat.add_zero] at ha ⊢
      simp [ha]
    | succ k =>
      have hk' : k < vs.length := by simpa using hk
      have := ih (if a < Config.memSize then Memory.write m a v else m) (a + 1) hk' (by omega)
      rw [Memory.writeList, show a + (k + 1) = a + 1 + k by omega, this]
      simp

end Sys2Proof.Machine
end

