-- ==== Sys2Proof/Laws/State.lean ====
section
/-! SUPPORT. What each named update of the state does to each field, one lemma per field per update,
and reading a register after an update. No later proof unfolds a record update. -/

namespace Sys2Proof.Machine

/-! ### writeReg -/

@[simp] theorem writeReg_regs (s : State) (i : Reg) (v : Byte) : (writeReg s i v).regs = s.regs.set i v := rfl
@[simp] theorem writeReg_pc (s : State) (i : Reg) (v : Byte) : (writeReg s i v).pc = s.pc := rfl
@[simp] theorem writeReg_fl (s : State) (i : Reg) (v : Byte) : (writeReg s i v).fl = s.fl := rfl
@[simp] theorem writeReg_run (s : State) (i : Reg) (v : Byte) : (writeReg s i v).run = s.run := rfl
@[simp] theorem writeReg_fault (s : State) (i : Reg) (v : Byte) : (writeReg s i v).fault = s.fault := rfl
@[simp] theorem writeReg_mem (s : State) (i : Reg) (v : Byte) : (writeReg s i v).mem = s.mem := rfl
@[simp] theorem writeReg_out (s : State) (i : Reg) (v : Byte) : (writeReg s i v).out = s.out := rfl

/-! ### writeSp -/

@[simp] theorem writeSp_regs (s : State) (v : Byte) : (writeSp s v).regs = s.regs.set 7 v := rfl
@[simp] theorem writeSp_pc (s : State) (v : Byte) : (writeSp s v).pc = s.pc := rfl
@[simp] theorem writeSp_fl (s : State) (v : Byte) : (writeSp s v).fl = s.fl := rfl
@[simp] theorem writeSp_run (s : State) (v : Byte) : (writeSp s v).run = s.run := rfl
@[simp] theorem writeSp_fault (s : State) (v : Byte) : (writeSp s v).fault = s.fault := rfl
@[simp] theorem writeSp_mem (s : State) (v : Byte) : (writeSp s v).mem = s.mem := rfl
@[simp] theorem writeSp_out (s : State) (v : Byte) : (writeSp s v).out = s.out := rfl

/-! ### setPc -/

@[simp] theorem setPc_regs (s : State) (t : PcWord) : (setPc s t).regs = s.regs := rfl
@[simp] theorem setPc_pc (s : State) (t : PcWord) : (setPc s t).pc = t := rfl
@[simp] theorem setPc_fl (s : State) (t : PcWord) : (setPc s t).fl = s.fl := rfl
@[simp] theorem setPc_run (s : State) (t : PcWord) : (setPc s t).run = s.run := rfl
@[simp] theorem setPc_fault (s : State) (t : PcWord) : (setPc s t).fault = s.fault := rfl
@[simp] theorem setPc_mem (s : State) (t : PcWord) : (setPc s t).mem = s.mem := rfl
@[simp] theorem setPc_out (s : State) (t : PcWord) : (setPc s t).out = s.out := rfl

/-! ### setFlags -/

@[simp] theorem setFlags_regs (s : State) (f : Flags) : (setFlags s f).regs = s.regs := rfl
@[simp] theorem setFlags_pc (s : State) (f : Flags) : (setFlags s f).pc = s.pc := rfl
@[simp] theorem setFlags_fl (s : State) (f : Flags) : (setFlags s f).fl = f := rfl
@[simp] theorem setFlags_run (s : State) (f : Flags) : (setFlags s f).run = s.run := rfl
@[simp] theorem setFlags_fault (s : State) (f : Flags) : (setFlags s f).fault = s.fault := rfl
@[simp] theorem setFlags_mem (s : State) (f : Flags) : (setFlags s f).mem = s.mem := rfl
@[simp] theorem setFlags_out (s : State) (f : Flags) : (setFlags s f).out = s.out := rfl

/-! ### emit -/

@[simp] theorem emit_regs (s : State) (v : Byte) : (emit s v).regs = s.regs := rfl
@[simp] theorem emit_pc (s : State) (v : Byte) : (emit s v).pc = s.pc := rfl
@[simp] theorem emit_fl (s : State) (v : Byte) : (emit s v).fl = s.fl := rfl
@[simp] theorem emit_run (s : State) (v : Byte) : (emit s v).run = s.run := rfl
@[simp] theorem emit_fault (s : State) (v : Byte) : (emit s v).fault = s.fault := rfl
@[simp] theorem emit_mem (s : State) (v : Byte) : (emit s v).mem = s.mem := rfl
@[simp] theorem emit_out (s : State) (v : Byte) : (emit s v).out = s.out ++ [v] := rfl

/-! ### halt -/

@[simp] theorem halt_regs (s : State) : (halt s).regs = s.regs := rfl
@[simp] theorem halt_pc (s : State) : (halt s).pc = s.pc := rfl
@[simp] theorem halt_fl (s : State) : (halt s).fl = s.fl := rfl
@[simp] theorem halt_run (s : State) : (halt s).run = .halted := rfl
@[simp] theorem halt_fault (s : State) : (halt s).fault = s.fault := rfl
@[simp] theorem halt_mem (s : State) : (halt s).mem = s.mem := rfl
@[simp] theorem halt_out (s : State) : (halt s).out = s.out := rfl

/-! ### storeByte -/

@[simp] theorem storeByte_regs (s : State) (a : Nat) (v : Byte) : (storeByte s a v).regs = s.regs := rfl
@[simp] theorem storeByte_pc (s : State) (a : Nat) (v : Byte) : (storeByte s a v).pc = s.pc := rfl
@[simp] theorem storeByte_fl (s : State) (a : Nat) (v : Byte) : (storeByte s a v).fl = s.fl := rfl
@[simp] theorem storeByte_run (s : State) (a : Nat) (v : Byte) : (storeByte s a v).run = s.run := rfl
@[simp] theorem storeByte_fault (s : State) (a : Nat) (v : Byte) : (storeByte s a v).fault = s.fault := rfl
@[simp] theorem storeByte_mem (s : State) (a : Nat) (v : Byte) : (storeByte s a v).mem = Memory.write s.mem a v := rfl
@[simp] theorem storeByte_out (s : State) (a : Nat) (v : Byte) : (storeByte s a v).out = s.out := rfl

/-! ### takeFault -/

@[simp] theorem takeFault_regs (s : State) (r : Raised) : (takeFault s r).regs = s.regs := rfl
@[simp] theorem takeFault_pc (s : State) (r : Raised) : (takeFault s r).pc = s.pc := rfl
@[simp] theorem takeFault_fl (s : State) (r : Raised) : (takeFault s r).fl = s.fl := rfl
@[simp] theorem takeFault_run (s : State) (r : Raised) : (takeFault s r).run = .faulted := rfl
@[simp] theorem takeFault_fault (s : State) (r : Raised) : (takeFault s r).fault = some { kind := r.kind, pc := s.pc, info := r.info } := rfl
@[simp] theorem takeFault_mem (s : State) (r : Raised) : (takeFault s r).mem = s.mem := rfl
@[simp] theorem takeFault_out (s : State) (r : Raised) : (takeFault s r).out = s.out := rfl

/-! ### advance -/

@[simp] theorem advance_regs (n : Nat) (s : State) : (advance n s).regs = s.regs := rfl
@[simp] theorem advance_pc (n : Nat) (s : State) : (advance n s).pc = s.pc + BitVec.ofNat 9 (1 + n) := rfl
@[simp] theorem advance_fl (n : Nat) (s : State) : (advance n s).fl = s.fl := rfl
@[simp] theorem advance_run (n : Nat) (s : State) : (advance n s).run = s.run := rfl
@[simp] theorem advance_fault (n : Nat) (s : State) : (advance n s).fault = s.fault := rfl
@[simp] theorem advance_mem (n : Nat) (s : State) : (advance n s).mem = s.mem := rfl
@[simp] theorem advance_out (n : Nat) (s : State) : (advance n s).out = s.out := rfl

/-! ### placeAtPc -/

@[simp] theorem placeAtPc_regs (s : State) (bs : List Byte) : (placeAtPc s bs).regs = s.regs := rfl
@[simp] theorem placeAtPc_pc (s : State) (bs : List Byte) : (placeAtPc s bs).pc = s.pc := rfl
@[simp] theorem placeAtPc_fl (s : State) (bs : List Byte) : (placeAtPc s bs).fl = s.fl := rfl
@[simp] theorem placeAtPc_run (s : State) (bs : List Byte) : (placeAtPc s bs).run = s.run := rfl
@[simp] theorem placeAtPc_fault (s : State) (bs : List Byte) : (placeAtPc s bs).fault = s.fault := rfl
@[simp] theorem placeAtPc_mem (s : State) (bs : List Byte) : (placeAtPc s bs).mem = Memory.writeList s.mem s.pc.toNat bs := rfl
@[simp] theorem placeAtPc_out (s : State) (bs : List Byte) : (placeAtPc s bs).out = s.out := rfl

/-! ### Reading a register -/

@[simp] theorem readReg_writeReg_same (s : State) (i : Reg) (v : Byte) :
    readReg (writeReg s i v) i = v := by
  simp [readReg]

theorem readReg_writeReg_ne (s : State) {i j : Reg} (v : Byte) (h : j ≠ i) :
    readReg (writeReg s i v) j = readReg s j := by
  have hv : i.val ≠ j.val := fun e => h (Fin.ext e.symm)
  simp [readReg, Vector.getElem_set_ne _ _ hv]

/-- A register write stores the value, and every other register keeps its own. -/
theorem readReg_writeReg (s : State) (i j : Reg) (v : Byte) :
    readReg (writeReg s i v) j = if j = i then v else readReg s j := by
  split
  · next h => rw [h, readReg_writeReg_same]
  · next h => exact readReg_writeReg_ne s v h

@[simp] theorem readReg_writeSp_same (s : State) (v : Byte) : readReg (writeSp s v) 7 = v :=
  readReg_writeReg_same s 7 v

theorem readReg_writeSp_ne (s : State) {j : Reg} (v : Byte) (h : j ≠ 7) :
    readReg (writeSp s v) j = readReg s j :=
  readReg_writeReg_ne s v h

@[simp] theorem readSp_writeSp (s : State) (v : Byte) : readSp (writeSp s v) = v :=
  readReg_writeReg_same s 7 v

theorem readSp_eq (s : State) : readSp s = readReg s 7 := rfl

theorem writeSp_eq (s : State) (v : Byte) : writeSp s v = writeReg s 7 v := rfl

@[simp] theorem readReg_setPc (s : State) (t : PcWord) (i : Reg) : readReg (setPc s t) i = readReg s i := rfl
@[simp] theorem readSp_setPc (s : State) (t : PcWord) : readSp (setPc s t) = readSp s := rfl
@[simp] theorem readReg_setFlags (s : State) (f : Flags) (i : Reg) : readReg (setFlags s f) i = readReg s i := rfl
@[simp] theorem readSp_setFlags (s : State) (f : Flags) : readSp (setFlags s f) = readSp s := rfl
@[simp] theorem readReg_emit (s : State) (v : Byte) (i : Reg) : readReg (emit s v) i = readReg s i := rfl
@[simp] theorem readSp_emit (s : State) (v : Byte) : readSp (emit s v) = readSp s := rfl
@[simp] theorem readReg_halt (s : State) (i : Reg) : readReg (halt s) i = readReg s i := rfl
@[simp] theorem readSp_halt (s : State) : readSp (halt s) = readSp s := rfl
@[simp] theorem readReg_storeByte (s : State) (a : Nat) (v : Byte) (i : Reg) : readReg (storeByte s a v) i = readReg s i := rfl
@[simp] theorem readSp_storeByte (s : State) (a : Nat) (v : Byte) : readSp (storeByte s a v) = readSp s := rfl
@[simp] theorem readReg_takeFault (s : State) (r : Raised) (i : Reg) : readReg (takeFault s r) i = readReg s i := rfl
@[simp] theorem readSp_takeFault (s : State) (r : Raised) : readSp (takeFault s r) = readSp s := rfl
@[simp] theorem readReg_advance (n : Nat) (s : State) (i : Reg) : readReg (advance n s) i = readReg s i := rfl
@[simp] theorem readSp_advance (n : Nat) (s : State) : readSp (advance n s) = readSp s := rfl
@[simp] theorem readReg_placeAtPc (s : State) (bs : List Byte) (i : Reg) : readReg (placeAtPc s bs) i = readReg s i := rfl
@[simp] theorem readSp_placeAtPc (s : State) (bs : List Byte) : readSp (placeAtPc s bs) = readSp s := rfl

end Sys2Proof.Machine
end

