-- ==== Sys2Proof/Laws/Ops.lean ====
section
/-! SUPPORT. One lemma for each shared operation that says what it can do; later proofs cite these
and do not unfold the operation. -/

namespace Sys2Proof.Machine

/-! ### Words -/

@[simp] theorem trunc8_toNat (v : Nat) : (trunc8 v).toNat = v % 256 := by simp [trunc8]

@[simp] theorem zext9_toNat (v : Byte) : (zext9 v).toNat = v.toNat := by
  simp only [zext9, BitVec.toNat_setWidth]
  omega

@[simp] theorem target_toNat (v : Byte) : (target v).toNat = v.toNat := zext9_toNat v

/-! ### The ALU -/

theorem aluAdd_toNat (u v : Byte) : (aluAdd u v).toNat = (u.toNat + v.toNat) % 256 := by
  simp [aluAdd]

theorem aluMul_toNat (u v : Byte) : (aluMul u v).toNat = (u.toNat * v.toNat) % 256 := by
  simp [aluMul]

theorem aluDec_eq (u : Byte) : aluDec u = u - 1 := by
  apply BitVec.eq_of_toNat_eq
  rw [aluDec, trunc8_toNat, BitVec.toNat_sub]
  simp [Nat.add_comm]

theorem aluInc_eq (u : Byte) : aluInc u = u + 1 := by
  apply BitVec.eq_of_toNat_eq
  simp [aluInc, BitVec.toNat_add]

theorem aluReturnAddress_toNat (pc : PcWord) :
    (aluReturnAddress pc).toNat = (pc.toNat + 2) % 256 := by
  simp [aluReturnAddress]

/-! ### The register check -/

/-- A legal selector names its register (`30_encoding.md` R64). -/
theorem regCheck_ok {b : Byte} {r : Reg} (h : b.toNat = r.val) : regCheck b = .ok r := by
  have hb : b.toNat < Config.nreg := h ▸ r.isLt
  simp only [regCheck, hb, dif_pos]
  exact congrArg _ (Fin.ext h)

/-- Any other selector raises `InvalidRegister` (`30_encoding.md` R64). -/
theorem regCheck_error {b : Byte} (h : 8 ≤ b.toNat) :
    regCheck b = .error ⟨.invalidRegister, b.toNat⟩ := by
  simp only [regCheck, Nat.not_lt.mpr h, dif_neg, not_false_eq_true]

/-- The two things a register check can do. -/
theorem regCheck_cases (b : Byte) :
    (∃ r : Reg, b.toNat = r.val ∧ regCheck b = .ok r) ∨
      (8 ≤ b.toNat ∧ regCheck b = .error ⟨.invalidRegister, b.toNat⟩) := by
  rcases Nat.lt_or_ge b.toNat 8 with h | h
  · exact .inl ⟨⟨b.toNat, h⟩, rfl, regCheck_ok rfl⟩
  · exact .inr ⟨h, regCheck_error h⟩

/-! ### Memory accesses -/

theorem memRead_ok (s : State) {a : Nat} (h : a < 256) :
    memRead s a = .ok (Memory.read s.mem a) := by
  simp [memRead, h]

theorem memRead_error (s : State) {a : Nat} (h : 256 ≤ a) :
    memRead s a = .error ⟨.outOfRange, a⟩ := by
  simp [memRead, Nat.not_lt.mpr h]

theorem memWrite_ok (s : State) {a : Nat} (h : a < 256) (v : Byte) :
    memWrite s a v = .ok (storeByte s a v) := by
  simp [memWrite, h]

theorem memWrite_error (s : State) {a : Nat} (h : 256 ≤ a) (v : Byte) :
    memWrite s a v = .error ⟨.outOfRange, a⟩ := by
  simp [memWrite, Nat.not_lt.mpr h]

/-- A data read never faults: its address is a register value (`20_memory.md` R44). -/
theorem memRead_byte (s : State) (a : Byte) :
    memRead s a.toNat = .ok (Memory.read s.mem a.toNat) :=
  memRead_ok s a.isLt

/-- A data write never faults (`20_memory.md` R44). -/
theorem memWrite_byte (s : State) (a v : Byte) :
    memWrite s a.toNat v = .ok (storeByte s a.toNat v) :=
  memWrite_ok s a.isLt v

/-! ### The compare -/

theorem compareFlags_less {u v : Byte} (h : u.toNat < v.toNat) :
    compareFlags u v = ⟨true, false, false⟩ := by
  simp [compareFlags, h]

theorem compareFlags_greater {u v : Byte} (h : v.toNat < u.toNat) :
    compareFlags u v = ⟨false, true, false⟩ := by
  simp [compareFlags, h, Nat.lt_asymm h]

theorem compareFlags_equal {u v : Byte} (h : u = v) :
    compareFlags u v = ⟨false, false, true⟩ := by
  simp [compareFlags, h]

/-! ### The end of a step -/

@[simp] theorem complete_error (n : Nat) (s : State) (r : Raised) :
    complete n s (.error r) = .next (takeFault s r) := rfl

@[simp] theorem complete_jumped (n : Nat) (s t : State) :
    complete n s (.ok (.jumped t)) = .next t := rfl

@[simp] theorem complete_sequential (n : Nat) (s t : State) :
    complete n s (.ok (.sequential t)) = .next (advance n t) := rfl

end Sys2Proof.Machine
end

