-- ==== Sys2Proof/Laws/Exec.lean ====
section
/-! SUPPORT. What each instruction does, as an equation: with legal selectors the state it leaves,
with an illegal one the fault it takes. Every later proof about `exec` cites these. -/

namespace Sys2Proof.Machine

variable {s : State} {a b : Byte} {r q : Reg}

/-! ### Machine control -/

theorem execNop_eq (s : State) : execNop s = .next (advance 0 s) := rfl

theorem execHlt_eq (s : State) : execHlt s = .next (halt s) := rfl

/-! ### Data movement -/

theorem execLdi_ok (s : State) (imm : Byte) (ha : a.toNat = r.val) :
    execLdi a imm s = .next (advance 2 (writeReg s r imm)) := by
  rw [execLdi, regCheck_ok ha]; rfl

theorem execLdi_bad (s : State) (imm : Byte) (ha : 8 ≤ a.toNat) :
    execLdi a imm s = .next (takeFault s ⟨.invalidRegister, a.toNat⟩) := by
  rw [execLdi, regCheck_error ha]; rfl

theorem execPrn_ok (s : State) (ha : a.toNat = r.val) :
    execPrn a s = .next (advance 1 (emit s (readReg s r))) := by
  rw [execPrn, regCheck_ok ha]; rfl

theorem execPrn_bad (s : State) (ha : 8 ≤ a.toNat) :
    execPrn a s = .next (takeFault s ⟨.invalidRegister, a.toNat⟩) := by
  rw [execPrn, regCheck_error ha]; rfl

/-! ### Arithmetic -/

theorem execAdd_ok (s : State) (ha : a.toNat = r.val) (hb : b.toNat = q.val) :
    execAdd a b s = .next (advance 2 (writeReg s r (aluAdd (readReg s r) (readReg s q)))) := by
  rw [execAdd, regCheck_ok ha, regCheck_ok hb]; rfl

theorem execAdd_badA (s : State) (b : Byte) (ha : 8 ≤ a.toNat) :
    execAdd a b s = .next (takeFault s ⟨.invalidRegister, a.toNat⟩) := by
  rw [execAdd, regCheck_error ha]; rfl

theorem execAdd_badB (s : State) (ha : a.toNat = r.val) (hb : 8 ≤ b.toNat) :
    execAdd a b s = .next (takeFault s ⟨.invalidRegister, b.toNat⟩) := by
  rw [execAdd, regCheck_ok ha, regCheck_error hb]; rfl

theorem execMul_ok (s : State) (ha : a.toNat = r.val) (hb : b.toNat = q.val) :
    execMul a b s = .next (advance 2 (writeReg s r (aluMul (readReg s r) (readReg s q)))) := by
  rw [execMul, regCheck_ok ha, regCheck_ok hb]; rfl

theorem execMul_badA (s : State) (b : Byte) (ha : 8 ≤ a.toNat) :
    execMul a b s = .next (takeFault s ⟨.invalidRegister, a.toNat⟩) := by
  rw [execMul, regCheck_error ha]; rfl

theorem execMul_badB (s : State) (ha : a.toNat = r.val) (hb : 8 ≤ b.toNat) :
    execMul a b s = .next (takeFault s ⟨.invalidRegister, b.toNat⟩) := by
  rw [execMul, regCheck_ok ha, regCheck_error hb]; rfl

/-! ### Stack -/

theorem execPush_ok (s : State) (ha : a.toNat = r.val) :
    execPush a s =
      .next (advance 1 (storeByte (pushPointer s) (pushAddress s) (pushValue s r))) := by
  rw [execPush, regCheck_ok ha, pushAddress]
  simp only [bind, Except.bind, memWrite_byte]
  rfl

theorem execPush_bad (s : State) (ha : 8 ≤ a.toNat) :
    execPush a s = .next (takeFault s ⟨.invalidRegister, a.toNat⟩) := by
  rw [execPush, regCheck_error ha]; rfl

theorem execPop_ok (s : State) (ha : a.toNat = r.val) :
    execPop a s =
      .next (advance 1 (writeSp (writeReg s r (Memory.read s.mem (popAddress s)))
        (aluInc (readSp (writeReg s r (Memory.read s.mem (popAddress s))))))) := by
  rw [execPop, regCheck_ok ha, popAddress]
  simp only [bind, Except.bind, memRead_byte]
  rfl

theorem execPop_bad (s : State) (ha : 8 ≤ a.toNat) :
    execPop a s = .next (takeFault s ⟨.invalidRegister, a.toNat⟩) := by
  rw [execPop, regCheck_error ha]; rfl

/-! ### Subroutine -/

/-- The state CALL leaves before it sets `pc`: the return address stored, then `sp` decremented. -/
def callPointer (s : State) : State :=
  writeSp (storeByte s (callAddress s) (aluReturnAddress s.pc)) (aluDec (readSp s))

theorem execCall_ok (s : State) (ha : a.toNat = r.val) :
    execCall a s = .next (setPc (callPointer s) (target (readReg (callPointer s) r))) := by
  rw [execCall, regCheck_ok ha, callAddress]
  simp only [bind, Except.bind, memWrite_byte]
  rfl

theorem execCall_bad (s : State) (ha : 8 ≤ a.toNat) :
    execCall a s = .next (takeFault s ⟨.invalidRegister, a.toNat⟩) := by
  rw [execCall, regCheck_error ha]; rfl

theorem execRet_eq (s : State) :
    execRet s = .next (setPc (retPointer s) (target (Memory.read s.mem (retAddress s)))) := by
  rw [execRet, retAddress]
  simp only [memRead_byte, bind, Except.bind]
  rfl

/-! ### Compare -/

theorem execCmp_ok (s : State) (ha : a.toNat = r.val) (hb : b.toNat = q.val) :
    execCmp a b s =
      .next (advance 2 (setFlags s (compareFlags (readReg s r) (readReg s q)))) := by
  rw [execCmp, regCheck_ok ha, regCheck_ok hb]; rfl

theorem execCmp_badA (s : State) (b : Byte) (ha : 8 ≤ a.toNat) :
    execCmp a b s = .next (takeFault s ⟨.invalidRegister, a.toNat⟩) := by
  rw [execCmp, regCheck_error ha]; rfl

theorem execCmp_badB (s : State) (ha : a.toNat = r.val) (hb : 8 ≤ b.toNat) :
    execCmp a b s = .next (takeFault s ⟨.invalidRegister, b.toNat⟩) := by
  rw [execCmp, regCheck_ok ha, regCheck_error hb]; rfl

/-! ### Jumps -/

theorem execJmp_ok (s : State) (ha : a.toNat = r.val) :
    execJmp a s = .next (setPc s (target (readReg s r))) := by
  rw [execJmp, regCheck_ok ha]; rfl

theorem execJmp_bad (s : State) (ha : 8 ≤ a.toNat) :
    execJmp a s = .next (takeFault s ⟨.invalidRegister, a.toNat⟩) := by
  rw [execJmp, regCheck_error ha]; rfl

theorem execJeq_taken (ha : a.toNat = r.val) (he : s.fl.e = true) :
    execJeq a s = .next (setPc s (target (readReg s r))) := by
  rw [execJeq, regCheck_ok ha, equalSet, he]; rfl

theorem execJeq_untaken (ha : a.toNat = r.val) (he : s.fl.e = false) :
    execJeq a s = .next (advance 1 s) := by
  rw [execJeq, regCheck_ok ha, equalSet, he]; rfl

theorem execJeq_bad (s : State) (ha : 8 ≤ a.toNat) :
    execJeq a s = .next (takeFault s ⟨.invalidRegister, a.toNat⟩) := by
  rw [execJeq, regCheck_error ha]; rfl

theorem execJne_taken (ha : a.toNat = r.val) (he : s.fl.e = false) :
    execJne a s = .next (setPc s (target (readReg s r))) := by
  rw [execJne, regCheck_ok ha, equalSet, he]; rfl

theorem execJne_untaken (ha : a.toNat = r.val) (he : s.fl.e = true) :
    execJne a s = .next (advance 1 s) := by
  rw [execJne, regCheck_ok ha, equalSet, he]; rfl

theorem execJne_bad (s : State) (ha : 8 ≤ a.toNat) :
    execJne a s = .next (takeFault s ⟨.invalidRegister, a.toNat⟩) := by
  rw [execJne, regCheck_error ha]; rfl

/-! ### All instructions at once -/

/-- The first selector of an instruction that names no register (`60_exceptions.md` R143). -/
abbrev firstIllegal (i : Instr) : Option Byte := i.selectors.find? fun b => 8 ≤ b.toNat

/-- Everything `exec` can do: it answers a next state, which is the fault entry for the first illegal
selector, or the state the instruction's own equation gives. What holds of all of these holds of
whatever `exec` answers. -/
theorem exec_forall (s : State) {P : Instr → State → Prop}
    (bad : ∀ i v, firstIllegal i = some v → P i (takeFault s ⟨.invalidRegister, v.toNat⟩))
    (nop : P .nop (advance 0 s))
    (hlt : P .hlt (halt s))
    (ldi : ∀ a imm (r : Reg), a.toNat = r.val → P (.ldi a imm) (advance 2 (writeReg s r imm)))
    (prn : ∀ a (r : Reg), a.toNat = r.val → P (.prn a) (advance 1 (emit s (readReg s r))))
    (add : ∀ a b (r q : Reg), a.toNat = r.val → b.toNat = q.val →
      P (.add a b) (advance 2 (writeReg s r (aluAdd (readReg s r) (readReg s q)))))
    (mul : ∀ a b (r q : Reg), a.toNat = r.val → b.toNat = q.val →
      P (.mul a b) (advance 2 (writeReg s r (aluMul (readReg s r) (readReg s q)))))
    (push : ∀ a (r : Reg), a.toNat = r.val →
      P (.push a) (advance 1 (storeByte (pushPointer s) (pushAddress s) (pushValue s r))))
    (pop : ∀ a (r : Reg), a.toNat = r.val →
      P (.pop a) (advance 1 (writeSp (writeReg s r (Memory.read s.mem (popAddress s)))
        (aluInc (readSp (writeReg s r (Memory.read s.mem (popAddress s))))))))
    (call : ∀ a (r : Reg), a.toNat = r.val →
      P (.call a) (setPc (callPointer s) (target (readReg (callPointer s) r))))
    (ret : P .ret (setPc (retPointer s) (target (Memory.read s.mem (retAddress s)))))
    (cmp : ∀ a b (r q : Reg), a.toNat = r.val → b.toNat = q.val →
      P (.cmp a b) (advance 2 (setFlags s (compareFlags (readReg s r) (readReg s q)))))
    (jmp : ∀ a (r : Reg), a.toNat = r.val → P (.jmp a) (setPc s (target (readReg s r))))
    (jeqTaken : ∀ a (r : Reg), a.toNat = r.val → s.fl.e = true →
      P (.jeq a) (setPc s (target (readReg s r))))
    (jeqUntaken : ∀ a (r : Reg), a.toNat = r.val → s.fl.e = false → P (.jeq a) (advance 1 s))
    (jneTaken : ∀ a (r : Reg), a.toNat = r.val → s.fl.e = false →
      P (.jne a) (setPc s (target (readReg s r))))
    (jneUntaken : ∀ a (r : Reg), a.toNat = r.val → s.fl.e = true → P (.jne a) (advance 1 s))
    (i : Instr) : ∃ t, exec i s = .next t ∧ P i t := by
  have one : ∀ {i : Instr} {a : Byte}, i.selectors = [a] →
      (8 ≤ a.toNat → exec i s = .next (takeFault s ⟨.invalidRegister, a.toNat⟩)) →
      (∀ r : Reg, a.toNat = r.val → ∃ t, exec i s = .next t ∧ P i t) →
      ∃ t, exec i s = .next t ∧ P i t := by
    intro i a hs hbad hok
    rcases regCheck_cases a with ⟨r, ha, -⟩ | ⟨ha, -⟩
    · exact hok r ha
    · exact ⟨_, hbad ha, bad i a (by simp [firstIllegal, hs, ha])⟩
  have two : ∀ {i : Instr} {a b : Byte}, i.selectors = [a, b] →
      (8 ≤ a.toNat → exec i s = .next (takeFault s ⟨.invalidRegister, a.toNat⟩)) →
      (∀ r : Reg, a.toNat = r.val → 8 ≤ b.toNat →
        exec i s = .next (takeFault s ⟨.invalidRegister, b.toNat⟩)) →
      (∀ r q : Reg, a.toNat = r.val → b.toNat = q.val → ∃ t, exec i s = .next t ∧ P i t) →
      ∃ t, exec i s = .next t ∧ P i t := by
    intro i a b hs hbadA hbadB hok
    rcases regCheck_cases a with ⟨r, ha, -⟩ | ⟨ha, -⟩
    · rcases regCheck_cases b with ⟨q, hb, -⟩ | ⟨hb, -⟩
      · exact hok r q ha hb
      · have ha' : ¬ 8 ≤ a.toNat := Nat.not_le.mpr (ha ▸ r.isLt)
        exact ⟨_, hbadB r ha hb, bad i b (by simp [firstIllegal, hs, ha', hb])⟩
    · exact ⟨_, hbadA ha, bad i a (by simp [firstIllegal, hs, ha])⟩
  cases i with
  | nop => exact ⟨_, execNop_eq s, nop⟩
  | hlt => exact ⟨_, execHlt_eq s, hlt⟩
  | ret => exact ⟨_, execRet_eq s, ret⟩
  | ldi a imm => exact one rfl (execLdi_bad s imm) fun r ha => ⟨_, execLdi_ok s imm ha, ldi a imm r ha⟩
  | prn a => exact one rfl (execPrn_bad s) fun r ha => ⟨_, execPrn_ok s ha, prn a r ha⟩
  | push a => exact one rfl (execPush_bad s) fun r ha => ⟨_, execPush_ok s ha, push a r ha⟩
  | pop a => exact one rfl (execPop_bad s) fun r ha => ⟨_, execPop_ok s ha, pop a r ha⟩
  | call a => exact one rfl (execCall_bad s) fun r ha => ⟨_, execCall_ok s ha, call a r ha⟩
  | jmp a => exact one rfl (execJmp_bad s) fun r ha => ⟨_, execJmp_ok s ha, jmp a r ha⟩
  | jeq a =>
    refine one rfl (execJeq_bad s) fun r ha => ?_
    cases he : s.fl.e with
    | true => exact ⟨_, execJeq_taken ha he, jeqTaken a r ha he⟩
    | false => exact ⟨_, execJeq_untaken ha he, jeqUntaken a r ha he⟩
  | jne a =>
    refine one rfl (execJne_bad s) fun r ha => ?_
    cases he : s.fl.e with
    | true => exact ⟨_, execJne_untaken ha he, jneUntaken a r ha he⟩
    | false => exact ⟨_, execJne_taken ha he, jneTaken a r ha he⟩
  | add a b =>
    exact two rfl (execAdd_badA s b) (fun _ ha hb => execAdd_badB s ha hb)
      fun r q ha hb => ⟨_, execAdd_ok s ha hb, add a b r q ha hb⟩
  | mul a b =>
    exact two rfl (execMul_badA s b) (fun _ ha hb => execMul_badB s ha hb)
      fun r q ha hb => ⟨_, execMul_ok s ha hb, mul a b r q ha hb⟩
  | cmp a b =>
    exact two rfl (execCmp_badA s b) (fun _ ha hb => execCmp_badB s ha hb)
      fun r q ha hb => ⟨_, execCmp_ok s ha hb, cmp a b r q ha hb⟩

end Sys2Proof.Machine
end

