-- ==== Sys2Proof/Laws/PerInstr.lean ====
section
/-! SUPPORT. The family of facts stated once per instruction: the length of its encoding agrees with
the length decoder (`30_encoding.md` R62, R69). -/

namespace Sys2Proof.Laws.EncodingLength

/-- The encoding begins with an opcode byte whose `N` field is the number of the bytes after it, and
that byte selects the instruction. -/
def Statement (i : Instr) : Prop :=
  ∃ op rest build, encode i = op :: rest ∧ dispatch op = some build ∧
    (encode i).length = instrLength op ∧ build (rest.getD 0 0) (rest.getD 1 0) = i

theorem nop : Statement .nop := ⟨_, _, _, rfl, rfl, rfl, rfl⟩
theorem hlt : Statement .hlt := ⟨_, _, _, rfl, rfl, rfl, rfl⟩
theorem ldi (ra imm : Byte) : Statement (.ldi ra imm) := ⟨_, _, _, rfl, rfl, rfl, rfl⟩
theorem prn (ra : Byte) : Statement (.prn ra) := ⟨_, _, _, rfl, rfl, rfl, rfl⟩
theorem add (ra rb : Byte) : Statement (.add ra rb) := ⟨_, _, _, rfl, rfl, rfl, rfl⟩
theorem mul (ra rb : Byte) : Statement (.mul ra rb) := ⟨_, _, _, rfl, rfl, rfl, rfl⟩
theorem push (ra : Byte) : Statement (.push ra) := ⟨_, _, _, rfl, rfl, rfl, rfl⟩
theorem pop (ra : Byte) : Statement (.pop ra) := ⟨_, _, _, rfl, rfl, rfl, rfl⟩
theorem call (ra : Byte) : Statement (.call ra) := ⟨_, _, _, rfl, rfl, rfl, rfl⟩
theorem ret : Statement .ret := ⟨_, _, _, rfl, rfl, rfl, rfl⟩
theorem cmp (ra rb : Byte) : Statement (.cmp ra rb) := ⟨_, _, _, rfl, rfl, rfl, rfl⟩
theorem jmp (ra : Byte) : Statement (.jmp ra) := ⟨_, _, _, rfl, rfl, rfl, rfl⟩
theorem jeq (ra : Byte) : Statement (.jeq ra) := ⟨_, _, _, rfl, rfl, rfl, rfl⟩
theorem jne (ra : Byte) : Statement (.jne ra) := ⟨_, _, _, rfl, rfl, rfl, rfl⟩

end Sys2Proof.Laws.EncodingLength
end

