-- ==== Sys2Proof/Laws/Step.lean ====
section
/-! SUPPORT. What a fetch and a step can do. -/

namespace Sys2Proof.Machine

/-- A fetch beyond the memory (`40_engine.md` R81). -/
theorem fetch_beyond (s : State) (h : 256 ≤ s.pc.toNat) :
    fetch s = .error ⟨.outOfRange, s.pc.toNat⟩ := by
  rw [fetch, memRead_error s h]; rfl

/-- A fetch of a byte that is no opcode (`40_engine.md` R82). -/
theorem fetch_unknown (s : State) (h : s.pc.toNat < 256)
    (hd : dispatch (Memory.read s.mem s.pc.toNat) = none) :
    fetch s = .error ⟨.unknownOpcode, (Memory.read s.mem s.pc.toNat).toNat⟩ := by
  rw [fetch, memRead_ok s h]
  simp only [bind, Except.bind, hd]
  rfl

/-- A fetch of an opcode: the rest is the operand fetch (`40_engine.md` R83). -/
theorem fetch_known (s : State) (h : s.pc.toNat < 256) {build : Byte → Byte → Instr}
    (hd : dispatch (Memory.read s.mem s.pc.toNat) = some build) :
    fetch s =
      (fetchOperands s (operandCount (Memory.read s.mem s.pc.toNat))).map
        (fun ab => build ab.1 ab.2) := by
  rw [fetch, memRead_ok s h]
  simp only [bind, Except.bind, hd]
  cases fetchOperands s (operandCount (Memory.read s.mem s.pc.toNat)) <;> rfl

theorem fetchOperands_zero (s : State) : fetchOperands s 0 = .ok (0, 0) := rfl

theorem fetchOperands_one (s : State) (h : s.pc.toNat + 1 < 256) :
    fetchOperands s 1 = .ok (Memory.read s.mem (s.pc.toNat + 1), 0) := by
  simp only [fetchOperands, memRead_ok s h]; rfl

theorem fetchOperands_two (s : State) (h : s.pc.toNat + 2 < 256) :
    fetchOperands s 2 =
      .ok (Memory.read s.mem (s.pc.toNat + 1), Memory.read s.mem (s.pc.toNat + 2)) := by
  have h1 : s.pc.toNat + 1 < 256 := by omega
  simp only [fetchOperands, memRead_ok s h, memRead_ok s h1]; rfl

/-- The first operand byte would lie beyond the memory (`40_engine.md` R83). -/
theorem fetchOperands_noFirst (s : State) {n : Nat} (hn : 1 ≤ n) (h : 256 ≤ s.pc.toNat + 1) :
    fetchOperands s n = .error ⟨.outOfRange, s.pc.toNat + 1⟩ := by
  simp only [fetchOperands, memRead_error s h, hn, if_true]; rfl

/-- The second operand byte would lie beyond the memory, the first does not
(`40_engine.md` R83). -/
theorem fetchOperands_noSecond (s : State) (h1 : s.pc.toNat + 1 < 256)
    (h2 : 256 ≤ s.pc.toNat + 2) :
    fetchOperands s 2 = .error ⟨.outOfRange, s.pc.toNat + 2⟩ := by
  simp only [fetchOperands, memRead_ok s h1, memRead_error s h2]; rfl

/-! ### A fetch and the encoding -/

/-- Nothing else is fetched than the instruction whose encoding stands at `pc`. -/
theorem fetch_ok_iff (s : State) (i : Instr) :
    fetch s = .ok i ↔
      s.pc.toNat + (encode i).length ≤ 256 ∧
        ∀ k (h : k < (encode i).length), Memory.read s.mem (s.pc.toNat + k) = (encode i)[k] := by
  constructor
  · intro hf
    rcases Nat.lt_or_ge s.pc.toNat 256 with hpc | hpc
    swap
    · rw [fetch_beyond s hpc] at hf; cases hf
    cases hd : dispatch (Memory.read s.mem s.pc.toNat) with
    | none => rw [fetch_unknown s hpc hd] at hf; cases hf
    | some build =>
      rw [fetch_known s hpc hd] at hf
      have hn := operandCount_le_two hd
      have he := encode_of_dispatch hd
      generalize operandCount (Memory.read s.mem s.pc.toNat) = n at hf hn he
      match n, hn with
      | 0, _ =>
        rw [fetchOperands_zero] at hf
        cases hf
        rw [he]
        refine ⟨by simp; omega, fun k hk => ?_⟩
        obtain rfl : k = 0 := by simpa using hk
        rfl
      | 1, _ =>
        rcases Nat.lt_or_ge (s.pc.toNat + 1) 256 with h1 | h1
        swap
        · rw [fetchOperands_noFirst s (Nat.le_refl 1) h1] at hf; cases hf
        rw [fetchOperands_one s h1] at hf
        cases hf
        rw [he]
        refine ⟨by simp; omega, fun k hk => ?_⟩
        match k, hk with
        | 0, _ => rfl
        | 1, _ => rfl
      | 2, _ =>
        rcases Nat.lt_or_ge (s.pc.toNat + 1) 256 with h1 | h1
        swap
        · rw [fetchOperands_noFirst s (by decide) h1] at hf; cases hf
        rcases Nat.lt_or_ge (s.pc.toNat + 2) 256 with h2 | h2
        swap
        · rw [fetchOperands_noSecond s h1 h2] at hf; cases hf
        rw [fetchOperands_two s h2] at hf
        cases hf
        rw [he]
        refine ⟨by simp; omega, fun k hk => ?_⟩
        match k, hk with
        | 0, _ => rfl
        | 1, _ => rfl
        | 2, _ => rfl
  · rintro ⟨hlen, hb⟩
    obtain ⟨op, rest, build, he, hd, hr, hi⟩ := dispatch_of_encode i
    have hn := operandCount_le_two hd
    simp only [he, List.length_cons] at hlen hb
    have hop : Memory.read s.mem s.pc.toNat = op := hb 0 (by omega)
    rw [fetch_known s (by omega) (hop ▸ hd), hop, ← hr]
    rw [← hr] at hn
    match rest, hn with
    | [], _ => rw [← hi]; rfl
    | [a], _ =>
      have ha : Memory.read s.mem (s.pc.toNat + 1) = a := hb 1 (by simp)
      rw [← hi, List.length_singleton, fetchOperands_one s (by simp at hlen; omega), ha]; rfl
    | [a, b], _ =>
      have ha : Memory.read s.mem (s.pc.toNat + 1) = a := hb 1 (by simp)
      have hb : Memory.read s.mem (s.pc.toNat + 2) = b := hb 2 (by simp)
      simp only [List.length_cons, List.length_nil, Nat.zero_add, Nat.reduceAdd] at hlen ⊢
      rw [← hi, fetchOperands_two s (by omega), ha, hb]; rfl

/-! ### The step -/

theorem step_of_fetch_error {s : State} (hr : s.run = .running) {r : Raised}
    (h : fetch s = .error r) : step s = .next (takeFault s r) := by
  simp [step, hr, h]

theorem step_of_fetch_ok {s : State} (hr : s.run = .running) {i : Instr}
    (h : fetch s = .ok i) : step s = exec i s := by
  simp [step, hr, h]

theorem step_halted {s : State} (hr : s.run = .halted) : step s = .fault .noStepHalted := by
  simp [step, hr]

theorem step_faulted {s : State} (hr : s.run = .faulted) : step s = .fault .noStepFaulted := by
  simp [step, hr]

/-- Everything a step that answers a next state can have done: the engine was running, and either
the fetch raised a fault that was taken, or an instruction was fetched and executed. -/
theorem step_next_cases {s t : State} (h : step s = .next t) :
    s.run = .running ∧
      ((∃ r, fetch s = .error r ∧ t = takeFault s r) ∨
        ∃ i, fetch s = .ok i ∧ exec i s = .next t) := by
  cases hr : s.run with
  | halted => rw [step_halted hr] at h; cases h
  | faulted => rw [step_faulted hr] at h; cases h
  | running =>
    refine ⟨rfl, ?_⟩
    cases hf : fetch s with
    | error r =>
      rw [step_of_fetch_error hr hf] at h
      exact .inl ⟨r, rfl, by cases h; rfl⟩
    | ok i => exact .inr ⟨i, rfl, by rw [← step_of_fetch_ok hr hf]; exact h⟩

end Sys2Proof.Machine
end

