-- ==== Sys2Proof/Laws/Run.lean ====
section
/-! SUPPORT. Runs with fuel, and reset by the host. -/

namespace Sys2Proof.Machine

@[simp] theorem runSteps_zero (s : State) : runSteps 0 s = s := rfl

theorem runSteps_next {s t : State} (h : step s = .next t) (k : Nat) :
    runSteps (k + 1) s = runSteps k t := by
  rw [runSteps, h]

/-- An engine that is not running takes no step, however much fuel there is. -/
theorem runSteps_not_running {s : State} (h : s.run ≠ .running) (k : Nat) : runSteps k s = s := by
  cases k with
  | zero => rfl
  | succ k =>
    rw [runSteps]
    cases hr : s.run with
    | running => exact absurd hr h
    | halted => rw [step_halted hr]
    | faulted => rw [step_faulted hr]

/-- What a reset with an image answers, when it answers a next state. -/
theorem hostReset_next {image : List Byte} {s t : State} (h : hostReset image s = .next t) :
    image.length ≤ 256 ∧ t = { State.reset with mem := loadImage image } := by
  rw [hostReset] at h
  split at h
  · next hl => exact ⟨hl, by cases h; rfl⟩
  · cases h

theorem loadImage_wf (image : List Byte) : Memory.wf (loadImage image) = true :=
  Memory.writeList_keeps_wf Memory.wf_nil 0 image

end Sys2Proof.Machine
end

