-- ==== Sys2Proof/Tests/Slice0.lean ====
section
/-! SUPPORT. Tests: well-formedness, decoding of words written out bit by bit from the table of
`30_encoding.md` R66, single steps from `95_test_vectors.md` (cited as V<n>), and for every
statement with hypotheses a state and operands that meet them. -/

namespace Sys2Proof.Tests

open Sys2Proof Sys2Proof.Machine Sys2Proof.Claims

/-! ### Helpers -/

/-- The reset state of the empty image with the given `pc` and the bytes placed at `pc`. -/
def at' (pc : PcWord) (bytes : List Byte) : State := placeAtPc { State.reset with pc := pc } bytes

/-- The step from `s` answers a next state with property `p`. -/
def steps (s : State) (p : State → Bool) : Bool :=
  match step s with
  | .next t => p t
  | .fault _ => false
  | .refused _ => false

/-- The step from `s` changes nothing but `RUN` and `FAULT`, which record this fault. -/
def faults (s : State) (k : FaultKind) (pc : PcWord) (v : Nat) : Bool :=
  steps s fun t => t == { s with run := .faulted, fault := some ⟨k, pc, v⟩ }

/-- Only the flag L, only G, only E. -/
def flagL : Flags := ⟨true, false, false⟩
def flagG : Flags := ⟨false, true, false⟩
def flagE : Flags := ⟨false, false, true⟩

/-! ### WellFormed: one ill-formed term for each check -/

theorem test_wellFormed_accepts :
    ([.nop, .hlt, .ldi 7 255, .prn 7, .add 7 7, .mul 0 7, .push 7, .pop 7, .call 7, .ret, .cmp 7 7,
      .jmp 7, .jeq 7, .jne 7] : List Instr).all Instr.wellFormed = true := by decide

theorem test_wellFormed_refuses_first_selector :
    ([.ldi 8 0, .prn 8, .add 8 0, .mul 8 0, .push 8, .pop 8, .call 8, .cmp 8 0, .jmp 8, .jeq 8,
      .jne 8] : List Instr).all (fun i => !i.wellFormed) = true := by decide

theorem test_wellFormed_refuses_second_selector :
    ([.add 0 8, .mul 0 255, .cmp 0 8] : List Instr).all (fun i => !i.wellFormed) = true := by decide

/-! ### Decoding, each word written out from the encoding the spec gives -/

theorem test_decode_nop : decode [0b00000000] = .ok (.nop, []) := by decide
theorem test_decode_hlt : decode [0b00000001] = .ok (.hlt, []) := by decide
theorem test_decode_ldi :
    decode [0b10000010, 0b00000000, 0b00001000] = .ok (.ldi 0 8, []) := by decide
theorem test_decode_prn : decode [0b01000111, 0b00000101] = .ok (.prn 5, []) := by decide
theorem test_decode_add :
    decode [0b10100000, 0b00000001, 0b00000010] = .ok (.add 1 2, []) := by decide
theorem test_decode_mul :
    decode [0b10100010, 0b00000111, 0b00000100] = .ok (.mul 7 4, []) := by decide
theorem test_decode_push : decode [0b01000101, 0b00000010] = .ok (.push 2, []) := by decide
theorem test_decode_pop : decode [0b01000110, 0b00000110] = .ok (.pop 6, []) := by decide
theorem test_decode_call : decode [0b01010000, 0b00000001] = .ok (.call 1, []) := by decide
theorem test_decode_ret : decode [0b00010001] = .ok (.ret, []) := by decide
theorem test_decode_cmp :
    decode [0b10100111, 0b00000011, 0b00000000] = .ok (.cmp 3 0, []) := by decide
theorem test_decode_jmp : decode [0b01010100, 0b00000011] = .ok (.jmp 3, []) := by decide
theorem test_decode_jeq : decode [0b01010101, 0b00000111] = .ok (.jeq 7, []) := by decide
theorem test_decode_jne : decode [0b01010110, 0b00000100] = .ok (.jne 4, []) := by decide

/-- The selector byte is not masked: 0x08 does not name R0 (`30_encoding.md` R64). -/
theorem test_decode_keeps_the_whole_selector :
    decode [0b01000111, 0b00001000] = .ok (.prn 8, []) := by decide

/-- The bytes after the instruction are left. -/
theorem test_decode_leaves_the_rest :
    decode [0x82, 0, 8, 0x47, 0, 1, 1] = .ok (.ldi 0 8, [0x47, 0, 1, 1]) := by decide

/-- The unknown bytes of the second table of `95_test_vectors.md` section 2.1. -/
theorem test_decode_unknown :
    ([0x02, 0x07, 0x10, 0x20, 0x40, 0x41, 0x42, 0x44, 0x48, 0x51, 0x52, 0x57, 0x80, 0x81, 0x83,
      0xA1, 0xA8, 0xC0, 0xC2, 0xFF] : List Byte).all
      (fun b => decide (decode [b, 0, 0, 0] = .error (.unknownOpcode b))) = true := by decide

/-- 14 legal bytes, so 242 unknown ones (`95_test_vectors.md` section 2.1). -/
theorem test_fourteen_legal_bytes :
    ((List.range 256).filter fun n => (dispatch (BitVec.ofNat 8 n)).isSome).length = 14 := by
  decide +kernel

theorem test_decode_missing_operands :
    decode [0x82] = .error (.missingOperand 1) ∧ decode [0x82, 0] = .error (.missingOperand 2) ∧
    decode [] = .error .noOpcode := by decide

/-- The first byte is the lowest one of the table's word, the operands follow. -/
theorem test_decodeTableWord :
    decodeTableWord 24 0x080082 = some (.ldi 0 8) ∧ decodeTableWord 16 0x0347 = some (.prn 3) ∧
    decodeTableWord 8 0x11 = some .ret ∧ decodeTableWord 8 0xA0 = some (.add 0 0) ∧
    decodeTableWord 8 0x20 = none := by decide

/-- The word placed for the next fetch runs as the first instruction after reset. -/
theorem test_withFetchWord :
    steps (State.reset.withFetchWord 24 0x080082)
      (fun t => readReg t 0 == 8 && t.pc == 3 && t.run == .running) = true := by decide

/-! ### Single steps from the vectors of `95_test_vectors.md` -/

/-- V2: no wrap, no fault yet. -/
theorem test_nop_at_the_last_address :
    steps (at' 255 [0x00]) (fun t => t.pc == 256 && t.run == .running) = true := by decide

/-- V3, second step. -/
theorem test_fetch_at_256_faults : faults (at' 256 []) .outOfRange 256 256 = true := by decide

/-- V4 and V6. -/
theorem test_hlt_keeps_pc :
    steps { writeReg (at' 5 [0x01]) 0 7 with fl := flagL }
      (fun t => t.pc == 5 && t.run == .halted && readReg t 0 == 7 && t.fl == flagL) = true := by
  decide

/-- The engine has no step when `RUN` is not Running (`40_engine.md` R80). -/
theorem test_no_step_after_the_end :
    step { at' 0 [0x00] with run := .halted } = .fault .noStepHalted ∧
    step { at' 0 [0x00] with run := .faulted } = .fault .noStepFaulted := ⟨rfl, rfl⟩

/-- V16. -/
theorem test_ldi_at_253 :
    steps (at' 253 [0x82, 1, 9]) (fun t => t.pc == 256 && readReg t 1 == 9) = true := by decide

/-- V19. -/
theorem test_ldi_cut_off_before_register_check :
    faults (at' 254 [0x82, 9]) .outOfRange 254 256 = true := by decide

/-- V23. -/
theorem test_prn_of_the_stack_pointer :
    steps (at' 0 [0x47, 7]) (fun t => t.out == [244] && t.pc == 2) = true := by decide

/-- V24. -/
theorem test_prn_faults_and_emits_nothing :
    faults (at' 0 [0x47, 8]) .invalidRegister 0 8 = true := by decide

/-- V37: the sum wraps, the flags are untouched. -/
theorem test_add_wraps :
    steps { writeReg (writeReg (at' 0 [0xA0, 0, 1]) 0 0xFF) 1 0xFF with fl := flagE }
      (fun t => readReg t 0 == 0xFE && readReg t 1 == 0xFF && t.fl == flagE && t.pc == 3) = true := by
  decide

/-- V40: both selectors invalid, the first is reported. -/
theorem test_add_reports_the_first_selector :
    faults (at' 0 [0xA0, 0xC8, 9]) .invalidRegister 0 200 = true := by decide

/-- V43: 65025 mod 256. -/
theorem test_mul_keeps_the_low_byte :
    steps (writeReg (writeReg (at' 0 [0xA2, 0, 1]) 0 0xFF) 1 0xFF)
      (fun t => readReg t 0 == 1 && t.pc == 3) = true := by decide

/-- V48: squaring, the source is the destination. -/
theorem test_mul_squares :
    steps (writeReg (at' 0 [0xA2, 2, 2]) 2 0x0D) (fun t => readReg t 2 == 0xA9) = true := by decide

/-- V61: `sp` wraps from 0 to 255. -/
theorem test_push_wraps_the_stack_pointer :
    steps (writeReg (writeReg (at' 0x10 [0x45, 0]) 0 0x2A) 7 0)
      (fun t => readReg t 7 == 0xFF && Memory.read t.mem 0xFF == 0x2A && t.pc == 0x12) = true := by
  decide

/-- V62: PUSH R7 stores the decremented pointer. -/
theorem test_push_of_the_stack_pointer :
    steps (at' 0 [0x45, 7]) (fun t => readReg t 7 == 0xF3 && Memory.read t.mem 0xF3 == 0xF3) = true := by
  decide

/-- V68: `sp` wraps from 255 to 0. -/
theorem test_pop_wraps_the_stack_pointer :
    steps (storeByte (writeReg (at' 0 [0x46, 0]) 7 0xFF) 0xFF 0x5A)
      (fun t => readReg t 0 == 0x5A && readReg t 7 == 0 && t.pc == 2) = true := by decide

/-- V69: POP R7 is loaded, then incremented. -/
theorem test_pop_of_the_stack_pointer :
    steps (storeByte (writeReg (at' 0 [0x46, 7]) 7 0xF3) 0xF3 0x10)
      (fun t => readReg t 7 == 0x11) = true := by decide

/-- V80: the return address is stored at the undecremented pointer. -/
theorem test_call_stores_at_sp :
    steps (writeReg (at' 6 [0x50, 1]) 1 0x0C)
      (fun t => t.pc == 0x0C && readReg t 7 == 0xF3 && Memory.read t.mem 0xF4 == 8) = true := by
  decide

/-- V83: CALL R7 jumps to the decremented pointer. -/
theorem test_call_of_the_stack_pointer :
    steps (at' 0x20 [0x50, 7])
      (fun t => t.pc == 0xF3 && readReg t 7 == 0xF3 && Memory.read t.mem 0xF4 == 0x22) = true := by
  decide

/-- V87: increment, then read. -/
theorem test_ret_increments_then_reads :
    steps (storeByte (writeReg (at' 0x40 [0x11]) 7 0xF3) 0xF4 8)
      (fun t => t.pc == 8 && readReg t 7 == 0xF4) = true := by decide

/-- V89: `sp` wraps, `pc = M[0]`. -/
theorem test_ret_wraps_the_stack_pointer :
    steps (storeByte (writeReg (at' 0x40 [0x11]) 7 0xFF) 0 0x33)
      (fun t => t.pc == 0x33 && readReg t 7 == 0) = true := by decide

/-- V106: unsigned, 128 is greater than 127. -/
theorem test_cmp_is_unsigned :
    steps (writeReg (writeReg (at' 0 [0xA7, 0, 1]) 0 0x80) 1 0x7F)
      (fun t => t.fl == flagG && t.pc == 3) = true := by decide

/-- V108: Equal, and the old L is cleared. -/
theorem test_cmp_replaces_the_flags :
    steps { at' 0 [0xA7, 2, 2] with fl := flagL } (fun t => t.fl == flagE) = true := by decide

/-- V122. -/
theorem test_jmp_to_the_stack_pointer :
    steps (at' 0x20 [0x54, 7]) (fun t => t.pc == 0xF4 && readReg t 7 == 0xF4) = true := by decide

/-- V124 and V125. -/
theorem test_jeq_taken_and_not :
    steps { writeReg (at' 0x14 [0x55, 3]) 3 0x30 with fl := flagE } (fun t => t.pc == 0x30) = true ∧
    steps { writeReg (at' 0x14 [0x55, 3]) 3 0x30 with fl := flagL } (fun t => t.pc == 0x16) = true := by
  decide

/-- V132: the register check comes first, the jump would not be taken. -/
theorem test_jeq_checks_an_untaken_target :
    faults (at' 0x14 [0x55, 8]) .invalidRegister 0x14 8 = true := by decide

/-- V128 and V130. -/
theorem test_jne_taken_and_not :
    steps { writeReg (at' 0x14 [0x56, 3]) 3 0x0C with fl := flagE } (fun t => t.pc == 0x16) = true ∧
    steps { writeReg (at' 0x14 [0x56, 3]) 3 0x0C with fl := flagG } (fun t => t.pc == 0x0C) = true := by
  decide

/-- V133: likewise. -/
theorem test_jne_checks_an_untaken_target :
    faults { at' 0x14 [0x56, 8] with fl := flagE } .invalidRegister 0x14 8 = true := by decide

/-- V142: 0xC0 at 255 is unknown; its "operands" are never read. -/
theorem test_unknown_opcode_at_255 : faults (at' 255 [0xC0]) .unknownOpcode 255 192 = true := by
  decide

/-! ### Witnesses: the hypotheses of every statement can be met, clause by clause, at the ends of
their ranges -/

theorem test_witness_DecoderRefusesByName :
    (0x20 : Byte).toNat ∉ opcodeBytes ∧ (0xFF : Byte).toNat ∉ opcodeBytes ∧
    ((0x82 : Byte).toNat ∈ opcodeBytes ∧ [(0 : Byte)].length < (0x82 : Byte).toNat / 64) ∧
    ((0x82 : Byte).toNat ∈ opcodeBytes ∧ (0x82 : Byte).toNat / 64 ≤ [(0 : Byte), 8].length) := by
  decide

theorem test_witness_LengthIsOnePlusTopTwoBits :
    encode .hlt ++ [] = [0x01] ∧ encode (.ldi 0 8) = 0x82 :: [0, 8] := by decide

theorem test_witness_MemoryAccessIsBoundsChecked :
    memRead State.reset 256 = .error ⟨.outOfRange, 256⟩ ∧ memRead State.reset 255 = .ok 0 := by
  decide

theorem test_witness_StepRunsTheDecodedInstruction :
    (Placed (at' 253 [0x82, 8, 9]) [0x82, 8, 9] ∧ decode [0x82, 8, 9] = .ok (.ldi 8 9, [])) ∧
    (Placed (at' 255 [0x01]) [0x01] ∧ decode [0x01] = .ok (.hlt, [])) := by decide

theorem test_witness_FetchAt256Faults : (at' 256 []).run = .running ∧ (at' 256 []).pc = 256 := by
  decide

theorem test_witness_UnknownOpcodeFaults :
    (Placed (at' 255 [0x20]) [0x20] ∧ (dispatch 0x20).isNone) ∧
    (Placed (at' 0 [0xFF]) [0xFF] ∧ (dispatch 0xFF).isNone) := by decide

theorem test_witness_OperandBeyondMemoryFaults :
    (CutOff (at' 254 [0x82]) 0x82 ((0x82 : Byte).toNat / 64) ∧ (0x82 : Byte).toNat ∈ opcodeBytes) ∧
    (CutOff (at' 255 [0x82]) 0x82 ((0x82 : Byte).toNat / 64)) ∧
    (CutOff (at' 255 [0x47]) 0x47 ((0x47 : Byte).toNat / 64) ∧ (0x47 : Byte).toNat ∈ opcodeBytes) := by
  decide

theorem test_witness_InvalidRegisterFaults :
    (Instr.add 7 8).selectors.find? (fun b => 8 ≤ b.toNat) = some 8 ∧
    (Instr.jeq 255).selectors.find? (fun b => 8 ≤ b.toNat) = some 255 ∧
    (Instr.add 7 7).selectors.find? (fun b => 8 ≤ b.toNat) = none := by decide

theorem test_witness_FaultsArePrecise :
    ∃ t, step (at' 0 [0x20]) = .next t ∧ t.run = .faulted := ⟨_, rfl, rfl⟩

theorem test_witness_FirstFailedCheckDecides :
    firstFault (at' 256 []) = some (.outOfRange, 256) ∧
    firstFault (at' 255 [0xC0]) = some (.unknownOpcode, 192) ∧
    firstFault (at' 255 [0x82]) = some (.outOfRange, 256) ∧
    firstFault (at' 254 [0x82, 9]) = some (.outOfRange, 256) ∧
    firstFault (at' 0 [0xA0, 9, 8]) = some (.invalidRegister, 9) ∧
    firstFault (at' 0 [0xA0, 7, 8]) = some (.invalidRegister, 8) ∧
    firstFault (at' 253 [0x82, 7, 255]) = none ∧ (at' 253 [0x82, 7, 255]).run = .running := by decide

theorem test_witness_EngineStepsExactlyWhenRunning :
    State.reset.run = .running ∧ ∃ t, step State.reset = .next t := ⟨rfl, _, rfl⟩

theorem test_witness_NoReturnFromAFault :
    ({ State.reset with run := .faulted } : State).run = .faulted := rfl

theorem test_witness_AdvanceNeverWraps :
    Placed (at' 255 [0x00]) [0x00] ∧ (0x00 : Byte).toNat ∈ [0x00, 0x82, 0x47, 0xA0, 0xA2, 0x45, 0x46, 0xA7] ∧
    ∃ t, step (at' 255 [0x00]) = .next t ∧ t.run = .running := ⟨by decide, by decide, _, rfl, rfl⟩

theorem test_witness_NopOnlyAdvances :
    Placed (at' 255 [0x00]) [0x00] ∧ (at' 256 []).run = .running ∧ (at' 256 []).pc = 256 := by decide

theorem test_witness_HltHalts : Placed (at' 255 [0x01]) [0x01] := by decide

theorem test_witness_LdiLoadsItsImmediate :
    Placed (at' 253 [0x82, 7, 255]) [0x82, 7, 255] ∧ (7 : Byte).toNat = (7 : Reg).val ∧
    8 ≤ (8 : Byte).toNat ∧ CutOff (at' 254 [0x82]) 0x82 2 ∧ CutOff (at' 255 [0x82]) 0x82 2 := by
  decide

theorem test_witness_PrnEmitsItsRegister :
    Placed (at' 254 [0x47, 0]) [0x47, 0] ∧ (0 : Byte).toNat = (0 : Reg).val ∧
    8 ≤ (8 : Byte).toNat ∧ CutOff (at' 255 [0x47]) 0x47 1 := by decide

theorem test_witness_AddAddsModulo256 :
    Placed (at' 253 [0xA0, 7, 0]) [0xA0, 7, 0] ∧
    ((7 : Byte).toNat = (7 : Reg).val ∧ (0 : Byte).toNat = (0 : Reg).val) ∧ 8 ≤ (8 : Byte).toNat ∧
    ((7 : Byte).toNat < 8 ∧ 8 ≤ (8 : Byte).toNat) ∧ CutOff (at' 254 [0xA0]) 0xA0 2 := by decide

theorem test_witness_MulMultipliesModulo256 :
    Placed (at' 253 [0xA2, 0, 7]) [0xA2, 0, 7] ∧
    ((0 : Byte).toNat = (0 : Reg).val ∧ (7 : Byte).toNat = (7 : Reg).val) ∧ 8 ≤ (255 : Byte).toNat ∧
    ((7 : Byte).toNat < 8 ∧ 8 ≤ (8 : Byte).toNat) ∧ CutOff (at' 255 [0xA2]) 0xA2 2 := by decide

theorem test_witness_PushDecrementsThenStores :
    Placed (at' 254 [0x45, 7]) [0x45, 7] ∧ (7 : Byte).toNat = (7 : Reg).val ∧
    8 ≤ (8 : Byte).toNat ∧ CutOff (at' 255 [0x45]) 0x45 1 := by decide

theorem test_witness_PopLoadsThenIncrements :
    Placed (at' 254 [0x46, 7]) [0x46, 7] ∧ ((7 : Byte).toNat = (7 : Reg).val ∧ (7 : Reg) = 7) ∧
    ((0 : Byte).toNat = (0 : Reg).val ∧ (0 : Reg) ≠ 7) ∧ 8 ≤ (8 : Byte).toNat ∧
    CutOff (at' 255 [0x46]) 0x46 1 := by decide

theorem test_witness_CallStoresThenDecrements :
    Placed (at' 254 [0x50, 7]) [0x50, 7] ∧ (7 : Byte).toNat = (7 : Reg).val ∧
    8 ≤ (8 : Byte).toNat ∧ CutOff (at' 255 [0x50]) 0x50 1 := by decide

theorem test_witness_RetIncrementsThenLoads : Placed (at' 255 [0x11]) [0x11] := by decide

theorem test_witness_CmpSetsExactlyOneFlag :
    Placed (at' 253 [0xA7, 7, 0]) [0xA7, 7, 0] ∧
    (readReg State.reset 0).toNat < (readReg State.reset 7).toNat ∧
    readReg State.reset 0 = readReg State.reset 1 ∧
    ((7 : Byte).toNat = (7 : Reg).val ∧ (0 : Byte).toNat = (0 : Reg).val) ∧ 8 ≤ (8 : Byte).toNat ∧
    ((7 : Byte).toNat < 8 ∧ 8 ≤ (8 : Byte).toNat) ∧ CutOff (at' 254 [0xA7]) 0xA7 2 := by decide

theorem test_witness_JmpGoesToItsRegister :
    Placed (at' 254 [0x54, 7]) [0x54, 7] ∧ (7 : Byte).toNat = (7 : Reg).val ∧
    8 ≤ (8 : Byte).toNat ∧ CutOff (at' 255 [0x54]) 0x54 1 := by decide

theorem test_witness_JeqJumpsWhenEqual :
    Placed (at' 254 [0x55, 7]) [0x55, 7] ∧ (7 : Byte).toNat = (7 : Reg).val ∧
    ({ at' 254 [0x55, 7] with fl := flagE } : State).fl.e = true ∧
    (at' 254 [0x55, 7]).fl.e = false ∧ 8 ≤ (8 : Byte).toNat ∧ CutOff (at' 255 [0x55]) 0x55 1 := by
  decide

theorem test_witness_JneJumpsWhenNotEqual :
    Placed (at' 254 [0x56, 7]) [0x56, 7] ∧ (7 : Byte).toNat = (7 : Reg).val ∧
    ({ at' 254 [0x56, 7] with fl := flagE } : State).fl.e = true ∧
    (at' 254 [0x56, 7]).fl.e = false ∧ 8 ≤ (8 : Byte).toNat ∧ CutOff (at' 255 [0x56]) 0x56 1 := by
  decide

theorem test_witness_PushPopMovesARegister :
    (0 : Byte).toNat = (0 : Reg).val ∧ (6 : Byte).toNat = (6 : Reg).val ∧ (0 : Reg) ≠ 7 ∧
    (6 : Reg) ≠ 7 := by decide

theorem test_witness_RetUndoesCall :
    ∃ t, (7 : Byte).toNat = (7 : Reg).val ∧ exec (.call 7) State.reset = .next t ∧
      readReg t 7 = readReg t 7 ∧
      Memory.read t.mem (callAddress State.reset) = Memory.read t.mem (callAddress State.reset) :=
  ⟨_, rfl, rfl, rfl, rfl⟩

theorem test_witness_CallOverwritesThePushedByte :
    (7 : Byte).toNat = (7 : Reg).val ∧ (0 : Byte).toNat = (0 : Reg).val := by decide

/-- V64: PUSH into `pc + 2` of the opcode of HLT. -/
theorem test_witness_PushedByteIsFetchedNext :
    let s := writeReg (writeReg (at' 0 [0x45, 0]) 0 1) 7 3
    Placed s [0x45, 0] ∧ (0 : Byte).toNat = (0 : Reg).val ∧ (0 : Reg) ≠ 7 ∧ s.pc.toNat + 2 < 256 ∧
    (readReg s 7 - 1).toNat = s.pc.toNat + 2 ∧ decode [readReg s 0] = .ok (.hlt, []) := by decide

/-- V121. -/
theorem test_witness_JumpToItselfNeverEnds :
    let s := writeReg (at' 0x20 [0x54, 2]) 2 0x20
    Placed s [0x54, 2] ∧ (2 : Byte).toNat = (2 : Reg).val ∧ (readReg s 2).toNat = s.pc.toNat := by
  decide

theorem test_witness_ZerosRunOffTheEnd :
    (State.reset.run = .running ∧ State.reset.pc.toNat ≤ 256 ∧
      ∀ a, State.reset.pc.toNat ≤ a → a < 256 → Memory.read State.reset.mem a = 0) ∧
    (at' 256 []).run = .running ∧ (at' 256 []).pc.toNat ≤ 256 ∧
      ∀ a, (at' 256 []).pc.toNat ≤ a → a < 256 → Memory.read (at' 256 []).mem a = 0 :=
  ⟨⟨rfl, by decide, fun _ _ _ => rfl⟩, rfl, by decide, fun _ _ _ => rfl⟩

theorem test_witness_OnlyCmpWritesFlags :
    (∃ t, exec (.cmp 7 0) State.reset = .next t ∧ (Instr.cmp 7 0).wellFormed = true) ∧
    ∃ t, exec (.jeq 0) State.reset = .next t ∧ flagG.e = State.reset.fl.e :=
  ⟨⟨_, rfl, rfl⟩, _, rfl, rfl⟩

theorem test_witness_OnlyPushAndCallStore :
    (∃ t, exec (.push 7) State.reset = .next t ∧
      Memory.read t.mem 0xF3 ≠ Memory.read State.reset.mem 0xF3) ∧
    ∃ t, exec (.call 7) State.reset = .next t ∧
      Memory.read t.mem 0xF4 ≠ Memory.read State.reset.mem 0xF4 :=
  ⟨⟨_, rfl, by decide⟩, _, rfl, by decide⟩

theorem test_witness_OutputOnlyGrowsByPrn :
    ∃ t, exec (.prn 7) State.reset = .next t ∧ t.out = State.reset.out ++ [0xF4] := ⟨_, rfl, rfl⟩

theorem test_witness_OnlyHltHalts :
    (∃ t, step (at' 255 [0x01]) = .next t ∧ t.run = .halted) ∧
    ∃ t, step (at' 255 [0x00]) = .next t ∧ t.run ≠ .halted :=
  ⟨⟨_, rfl, rfl⟩, _, rfl, by decide⟩

theorem test_witness_EndedRunStaysEnded :
    Ended (runSteps 1 (at' 0 [0x01])) ∧ Ended (runSteps 1 (at' 0 [0x20])) := by decide

theorem test_witness_StepKeepsTheInvariant :
    Inv (at' 253 [0xA7, 7, 0]) ∧ ∃ t, step (at' 253 [0xA7, 7, 0]) = .next t := ⟨by decide, _, rfl⟩

theorem test_witness_ReachableStatesMeetTheInvariant :
    ∃ t, step State.reset = .next t ∧ Reachable t :=
  ⟨_, rfl, .step State.reset _ (.reset [] State.reset State.reset rfl) rfl⟩

theorem test_witness_OneFlagStaysSet :
    (∃ t, step { at' 0 [0x00] with fl := flagE } = .next t ∧ ExactlyOneFlag flagE) ∧
    Placed (at' 253 [0xA7, 7, 0]) [0xA7] ∧
      ∃ t, step (at' 253 [0xA7, 7, 0]) = .next t ∧ t.run ≠ .faulted :=
  ⟨⟨_, rfl, by decide⟩, by decide, _, rfl, by decide⟩

theorem test_witness_ResetSetsStackPointerAndRuns :
    ∃ t, hostReset [0x82, 0, 8] State.reset = .next t := ⟨_, rfl⟩

theorem test_witness_HostResetLoadsTheImage :
    (List.replicate 256 (0 : Byte)).length ≤ 256 ∧ 256 < (List.replicate 257 (0 : Byte)).length ∧
    (0 < [(0x01 : Byte)].length ∧ [(0x01 : Byte)].length ≤ 1) := by
  simp only [List.length_replicate]; decide

theorem test_witness_HostReadsTheFinalStateOnlyAtTheEnd :
    State.reset.run = .running ∧ Ended (runSteps 1 (at' 0 [0x01])) ∧
    Ended (runSteps 1 (at' 0 [0x20])) := by decide

end Sys2Proof.Tests
end

section
/-! PROOFS. The architectural state (`10_state.md`): register writes, reset, and who writes and who
reads the flag register. -/

namespace Sys2Proof.Machine

/-! ### Illegal selectors -/

theorem find_illegal_one {a v : Byte} (h : [a].find? (fun b => 8 ≤ b.toNat) = some v) :
    8 ≤ a.toNat ∧ a = v := by
  simpa using h

/-- Of two selectors the first that names no register is found, the second only after a legal
first. -/
theorem find_illegal_two {a b v : Byte} (h : [a, b].find? (fun b => 8 ≤ b.toNat) = some v) :
    (8 ≤ a.toNat ∧ a = v) ∨ ((∃ r : Reg, a.toNat = r.val) ∧ 8 ≤ b.toNat ∧ b = v) := by
  rcases regCheck_cases a with ⟨r, ha, -⟩ | ⟨ha, -⟩
  · have ha' : ¬ 8 ≤ a.toNat := Nat.not_le.mpr (ha ▸ r.isLt)
    exact .inr ⟨⟨r, ha⟩, by simpa [ha'] using h⟩
  · exact .inl ⟨ha, by simpa [ha] using h⟩

/-- An instruction with an illegal selector takes the fault for the first one, in any state
(`60_exceptions.md` R143). -/
theorem exec_of_firstIllegal (s : State) {i : Instr} {v : Byte} (h : firstIllegal i = some v) :
    exec i s = .next (takeFault s ⟨.invalidRegister, v.toNat⟩) := by
  cases i with
  | nop | hlt | ret => cases h
  | ldi a imm => obtain ⟨ha, rfl⟩ := find_illegal_one h; exact execLdi_bad s imm ha
  | prn a => obtain ⟨ha, rfl⟩ := find_illegal_one h; exact execPrn_bad s ha
  | push a => obtain ⟨ha, rfl⟩ := find_illegal_one h; exact execPush_bad s ha
  | pop a => obtain ⟨ha, rfl⟩ := find_illegal_one h; exact execPop_bad s ha
  | call a => obtain ⟨ha, rfl⟩ := find_illegal_one h; exact execCall_bad s ha
  | jmp a => obtain ⟨ha, rfl⟩ := find_illegal_one h; exact execJmp_bad s ha
  | jeq a => obtain ⟨ha, rfl⟩ := find_illegal_one h; exact execJeq_bad s ha
  | jne a => obtain ⟨ha, rfl⟩ := find_illegal_one h; exact execJne_bad s ha
  | add a b =>
    obtain ⟨ha, rfl⟩ | ⟨⟨r, ha⟩, hb, rfl⟩ := find_illegal_two h
    · exact execAdd_badA s b ha
    · exact execAdd_badB s ha hb
  | mul a b =>
    obtain ⟨ha, rfl⟩ | ⟨⟨r, ha⟩, hb, rfl⟩ := find_illegal_two h
    · exact execMul_badA s b ha
    · exact execMul_badB s ha hb
  | cmp a b =>
    obtain ⟨ha, rfl⟩ | ⟨⟨r, ha⟩, hb, rfl⟩ := find_illegal_two h
    · exact execCmp_badA s b ha
    · exact execCmp_badB s ha hb

/-! ### The flag register -/

/-- A CMP is well formed exactly when both its selectors name registers. -/
theorem cmp_wellFormed_iff (a b : Byte) :
    (Instr.cmp a b).wellFormed = true ↔ ∃ r q : Reg, a.toNat = r.val ∧ b.toNat = q.val := by
  simp only [Instr.wellFormed, Instr.selectors, List.all_cons, List.all_nil, Bool.and_true,
    Bool.and_eq_true, selectorLegal, decide_eq_true_eq]
  constructor
  · rintro ⟨ha, hb⟩
    exact ⟨⟨a.toNat, ha⟩, ⟨b.toNat, hb⟩, rfl, rfl⟩
  · rintro ⟨r, q, ha, hb⟩
    exact ⟨ha ▸ r.isLt, hb ▸ q.isLt⟩

/-- A well-formed CMP forgets the flags it starts with (`10_state.md` R18). -/
theorem exec_cmp_setFlags (s : State) (f : Flags) {a b : Byte}
    (hw : (Instr.cmp a b).wellFormed = true) :
    exec (.cmp a b) (setFlags s f) = exec (.cmp a b) s := by
  obtain ⟨r, q, ha, hb⟩ := (cmp_wellFormed_iff a b).mp hw
  calc execCmp a b (setFlags s f)
      = .next (advance 2 (setFlags s (compareFlags (readReg s r) (readReg s q)))) :=
        execCmp_ok (setFlags s f) ha hb
    _ = execCmp a b s := (execCmp_ok s ha hb).symm

/-- `exec i` takes `s` to `t` with any flags handed on as they are: replacing the flags of `s` by `f`
replaces those of `t` by `f`. Asked of every execution but a well-formed CMP's; for JEQ and JNE `f`
has the E of `s` (`10_state.md` R18). -/
def HandsOnFlags (s : State) (f : Flags) (i : Instr) (t : State) : Prop :=
  (∀ a b, i = .cmp a b → ¬ i.wellFormed = true) →
    (∀ a, i = .jeq a ∨ i = .jne a → f.e = s.fl.e) →
    exec i (setFlags s f) = .next (setFlags t f)

/-- Each instruction's own equation, at the replaced flags, gives the same state but for them. -/
theorem exec_handsOnFlags {i : Instr} {s t : State} (f : Flags) (h : exec i s = .next t) :
    HandsOnFlags s f i t := by
  obtain ⟨t', ht', hands⟩ := exec_forall s (P := HandsOnFlags s f)
    (bad := fun _ _ hv _ _ => exec_of_firstIllegal _ hv)
    (nop := fun _ _ => execNop_eq _)
    (hlt := fun _ _ => execHlt_eq _)
    (ldi := fun _ imm _ ha _ _ => execLdi_ok _ imm ha)
    (prn := fun _ _ ha _ _ => execPrn_ok _ ha)
    (add := fun _ _ _ _ ha hb _ _ => execAdd_ok _ ha hb)
    (mul := fun _ _ _ _ ha hb _ _ => execMul_ok _ ha hb)
    (push := fun _ _ ha _ _ => execPush_ok _ ha)
    (pop := fun _ _ ha _ _ => execPop_ok _ ha)
    (call := fun _ _ ha _ _ => execCall_ok _ ha)
    (ret := fun _ _ => execRet_eq _)
    (cmp := fun a b r q ha hb hcmp _ =>
      absurd ((cmp_wellFormed_iff a b).mpr ⟨r, q, ha, hb⟩) (hcmp a b rfl))
    (jmp := fun _ _ ha _ _ => execJmp_ok _ ha)
    (jeqTaken := fun a _ ha h1 _ he => execJeq_taken ha ((he a (.inl rfl)).trans h1))
    (jeqUntaken := fun a _ ha h0 _ he => execJeq_untaken ha ((he a (.inl rfl)).trans h0))
    (jneTaken := fun a _ ha h0 _ he => execJne_taken ha ((he a (.inr rfl)).trans h0))
    (jneUntaken := fun a _ ha h1 _ he => execJne_untaken ha ((he a (.inr rfl)).trans h1))
    i
  cases h.symm.trans ht'
  exact hands

/-- Only a well-formed CMP writes the flags: any other execution commutes with putting the flags `s`
has in their own place. -/
theorem exec_keeps_fl {i : Instr} {s t : State} (h : exec i s = .next t)
    (hcmp : ∀ a b, i = .cmp a b → ¬ i.wellFormed = true) : t.fl = s.fl := by
  have hself : exec i s = .next (setFlags t s.fl) := exec_handsOnFlags s.fl h hcmp fun _ _ => rfl
  have ht : t = setFlags t s.fl := Host.Outcome.next.inj (h.symm.trans hself)
  rw [ht, setFlags_fl]

end Sys2Proof.Machine

namespace Sys2Proof.Proofs

open Sys2Proof.Machine

/-- Settles O39: a well-formed CMP forgets the flags, every other execution hands them on. -/
theorem onlyCmpWritesFlags : Obligations.OnlyCmpWritesFlags := by
  intro i s t h
  refine ⟨fun hne => exec_keeps_fl h fun a b hi => absurd hi (hne a b), fun f he => ?_⟩
  by_cases hc : ∃ a b, i = .cmp a b ∧ i.wellFormed = true
  · obtain ⟨a, b, rfl, hw⟩ := hc
    exact ⟨t, (exec_cmp_setFlags s f hw).trans h, rfl, fun _ _ _ _ => rfl⟩
  · have hcmp : ∀ a b, i = .cmp a b → ¬ i.wellFormed = true :=
      fun a b hi hw => hc ⟨a, b, hi, hw⟩
    exact ⟨setFlags t f, exec_handsOnFlags f h hcmp he, rfl, fun a b hi hw => absurd hw (hcmp a b hi)⟩

/-- Settles O6, by the rules for reading a register after a register write. -/
theorem registerWriteWraps : Obligations.RegisterWriteWraps := by
  intro s r v
  constructor
  · rw [readReg_writeReg_same, trunc8_toNat]
  · intro q hq
    exact readReg_writeReg_ne s (trunc8 v) hq

/-- Settles O48: a reset with an image differs from `State.reset` in the memory alone. -/
theorem resetSetsStackPointerAndRuns : Obligations.ResetSetsStackPointerAndRuns := by
  refine ⟨rfl, rfl, fun image s t h => ?_⟩
  obtain ⟨-, rfl⟩ := hostReset_next h
  exact ⟨rfl, rfl⟩

end Sys2Proof.Proofs
end

section
/-! PROOFS. The memory (`20_memory.md`): the bounds check of the engine's accesses, and what a store
changes. -/

namespace Sys2Proof.Proofs

open Sys2Proof.Machine

/-- Settles O7, by the laws of the two accesses on either side of the bound; below it a store is
`storeByte`, which changes the memory alone and there one cell. -/
theorem memoryAccessIsBoundsChecked : Obligations.MemoryAccessIsBoundsChecked := by
  intro s a v
  constructor
  · intro hout
    exact ⟨memRead_error s hout, memWrite_error s hout (trunc8 v)⟩
  · intro hin
    refine ⟨memRead_ok s hin, storeByte s a (trunc8 v), memWrite_ok s hin (trunc8 v), ?cell, ?others,
      readReg_storeByte s a (trunc8 v), storeByte_fl .., storeByte_pc .., storeByte_out ..,
      storeByte_run .., storeByte_fault ..⟩
    case cell => rw [storeByte_mem, Memory.read_write_same, trunc8_toNat]
    case others =>
      intro b hb
      rw [storeByte_mem, Memory.read_write_ne s.mem (trunc8 v) hb]

end Sys2Proof.Proofs
end

section
/-! PROOFS. The encoding (`30_encoding.md`): the length of an instruction. -/

namespace Sys2Proof

/-- The length decoder as arithmetic on the opcode byte (`30_encoding.md` R62). -/
theorem instrLength_eq (op : Byte) : instrLength op = 1 + op.toNat / 64 := by
  rw [instrLength, operandCount_eq]

/-- An instruction has as many bytes as the length decoder reads off its first one
(`30_encoding.md` R62). -/
theorem length_encode {i : Instr} {op : Byte} {rest : List Byte} (h : encode i = op :: rest) :
    (encode i).length = instrLength op := by
  obtain ⟨op', rest', _, henc, -, hlen, -⟩ := dispatch_of_encode i
  obtain ⟨rfl, rfl⟩ := List.cons.inj (h.symm.trans henc)
  rw [h, List.length_cons, hlen, instrLength, Nat.add_comm]

end Sys2Proof

namespace Sys2Proof.Proofs

/-- Settles O3: the length decoder is arithmetic on the opcode byte, and every encoding has the
length it answers. -/
theorem lengthIsOnePlusTopTwoBits : Obligations.LengthIsOnePlusTopTwoBits := by
  intro op i rest h
  exact ⟨instrLength_eq op, (length_encode h).trans (instrLength_eq op)⟩

end Sys2Proof.Proofs
end

section
/-! PROOFS. The engine (`40_engine.md`): the operations of the ALU. -/

namespace Sys2Proof.Machine

/-- The decrement over the integers: it takes 0 to 255 (`40_engine.md` R90). -/
theorem aluDec_toNat_int (u : Byte) : ((aluDec u).toNat : Int) = ((u.toNat : Int) - 1) % 256 := by
  have hnat : (aluDec u).toNat = (u.toNat + 255) % 256 := trunc8_toNat _
  omega

theorem aluInc_toNat (u : Byte) : (aluInc u).toNat = (u.toNat + 1) % 256 := trunc8_toNat _

/-- Each outcome of a comparison comes from one order of the operands alone, since the three orders
exclude each other and so do the three outcomes (`40_engine.md` R90). -/
theorem compareFlags_outcomes (u v : Byte) :
    (compareFlags u v = ⟨true, false, false⟩ ↔ u.toNat < v.toNat) ∧
    (compareFlags u v = ⟨false, true, false⟩ ↔ v.toNat < u.toNat) ∧
    (compareFlags u v = ⟨false, false, true⟩ ↔ u = v) := by
  rw [← BitVec.toNat_inj]
  rcases Nat.lt_trichotomy u.toNat v.toNat with h | h | h
  · simp [compareFlags_less h, h, Nat.lt_asymm h, Nat.ne_of_lt h]
  · simp [compareFlags_equal (BitVec.eq_of_toNat_eq h), h]
  · simp [compareFlags_greater h, h, Nat.lt_asymm h, Nat.ne_of_gt h]

end Sys2Proof.Machine

namespace Sys2Proof.Proofs

open Sys2Proof.Machine

/-- Settles O8: each operation is its exact result narrowed modulo 256, and the three outcomes of a
comparison exclude each other. -/
theorem aluOperations : Obligations.AluOperations := by
  intro u v pc
  exact ⟨aluAdd_toNat u v, aluMul_toNat u v, aluDec_toNat_int u, aluInc_toNat u,
    aluReturnAddress_toNat pc, compareFlags_outcomes u v⟩

end Sys2Proof.Proofs
end

section
/-! PROOFS. The encoding (`30_encoding.md`): the decoder reads what the encoder writes, refuses by
name, and the opcode map meets the source's constraints. -/

namespace Sys2Proof

open Sys2Proof.Claims

/-! ### The three answers of the decoder to a first byte -/

theorem decode_unknown {op : Byte} (hd : dispatch op = none) (rest : List Byte) :
    decode (op :: rest) = .error (.unknownOpcode op) := by
  simp [decode, hd]

/-- Too few bytes after an opcode byte: the first operand byte that is not there is missing
(`40_engine.md` R83). -/
theorem decode_missing {op : Byte} {build : Byte → Byte → Instr} (hd : dispatch op = some build)
    {rest : List Byte} (hshort : rest.length < operandCount op) :
    decode (op :: rest) = .error (.missingOperand (rest.length + 1)) := by
  have hn := operandCount_le_two hd
  simp only [decode, hd]
  generalize operandCount op = n at hshort hn
  match n, rest, hn, hshort with
  | 1, [], _, _ => rfl
  | 2, [], _, _ => rfl
  | 2, [_], _, _ => rfl

/-- An opcode byte with the operand bytes it counts: they build the instruction, a byte that is not
counted stands as 0 and is not used. -/
theorem decode_complete {op : Byte} {build : Byte → Byte → Instr} (hd : dispatch op = some build)
    {ops : List Byte} (hlen : ops.length = operandCount op) (rest : List Byte) :
    decode (op :: (ops ++ rest)) = .ok (build (ops.getD 0 0) (ops.getD 1 0), rest) := by
  have hn := operandCount_le_two hd
  simp only [decode, hd]
  generalize operandCount op = n at hlen hn
  match n, ops, hn, hlen with
  | 0, [], _, _ => rfl
  | 1, [_], _, _ => rfl
  | 2, [_, _], _, _ => rfl

/-- The same for the list cut where the operand bytes end. -/
theorem decode_long {op : Byte} {build : Byte → Byte → Instr} (hd : dispatch op = some build)
    {rest : List Byte} (hlong : operandCount op ≤ rest.length) :
    decode (op :: rest) =
      .ok (build ((rest.take (operandCount op)).getD 0 0) ((rest.take (operandCount op)).getD 1 0),
        rest.drop (operandCount op)) := by
  have h := decode_complete hd (List.length_take_of_le hlong) (rest.drop (operandCount op))
  rwa [List.take_append_drop] at h

/-! ### Decoding and encoding -/

/-- What is encoded, whatever follows it, is decoded to the same instruction. -/
theorem decode_encode_append (i : Instr) (rest : List Byte) :
    decode (encode i ++ rest) = .ok (i, rest) := by
  obtain ⟨op, ops, build, henc, hd, hlen, hbuild⟩ := dispatch_of_encode i
  rw [henc, List.cons_append, decode_complete hd hlen, hbuild]

/-- The encoding of an instruction built from the operand bytes its opcode byte counts. -/
theorem encode_of_operands {op : Byte} {build : Byte → Byte → Instr} (hd : dispatch op = some build)
    {ops : List Byte} (hlen : ops.length = operandCount op) :
    encode (build (ops.getD 0 0) (ops.getD 1 0)) = op :: ops := by
  have hn := operandCount_le_two hd
  rw [encode_of_dispatch hd]
  generalize operandCount op = n at hlen hn
  match n, ops, hn, hlen with
  | 0, [], _, _ => rfl
  | 1, [_], _, _ => rfl
  | 2, [_, _], _, _ => rfl

/-- What is decoded begins with the encoding of the instruction. -/
theorem eq_encode_append_of_decode {bs : List Byte} {i : Instr} {rest : List Byte}
    (h : decode bs = .ok (i, rest)) : bs = encode i ++ rest := by
  cases bs with
  | nil => cases h
  | cons op bs =>
    cases hd : dispatch op with
    | none => rw [decode_unknown hd] at h; cases h
    | some build =>
      rcases Nat.lt_or_ge bs.length (operandCount op) with hshort | hlong
      · rw [decode_missing hd hshort] at h; cases h
      · rw [decode_long hd hlong] at h
        cases h
        rw [encode_of_operands hd (List.length_take_of_le hlong), List.cons_append,
          List.take_append_drop]

/-! ### The opcode bytes as numbers -/

/-- The dispatcher knows exactly the fourteen bytes of the table (`30_encoding.md` R66). -/
theorem exists_dispatch_iff (op : Byte) :
    (∃ build, dispatch op = some build) ↔ op.toNat ∈ opcodeBytes := by
  rw [dispatch_some_iff, opcodeMap_bytes]

theorem dispatch_none_of_not_mem {op : Byte} (h : op.toNat ∉ opcodeBytes) : dispatch op = none := by
  by_contra hne
  exact h ((exists_dispatch_iff op).mp (Option.ne_none_iff_exists'.mp hne))

end Sys2Proof

namespace Sys2Proof.Proofs

open Sys2Proof.Claims

/-- Settles O1, one lemma for each direction. -/
theorem decodeIffEncoded : Obligations.DecodeIffEncoded := by
  intro bs i rest
  refine ⟨eq_encode_append_of_decode, ?_⟩
  rintro rfl
  exact decode_encode_append i rest

/-- Settles O2: the look-up fails, or the rest is shorter than the operand count, or it is not. -/
theorem decoderRefusesByName : Obligations.DecoderRefusesByName := by
  refine ⟨rfl, fun op rest => ⟨fun hop => ?_, fun hop hshort => ?_, fun hop hlong => ?_⟩⟩
  · exact decode_unknown (dispatch_none_of_not_mem hop) rest
  · obtain ⟨build, hd⟩ := (exists_dispatch_iff op).mpr hop
    rw [← operandCount_eq] at hshort
    exact decode_missing hd hshort
  · obtain ⟨build, hd⟩ := (exists_dispatch_iff op).mpr hop
    rw [← operandCount_eq] at hlong ⊢
    exact ⟨_, decode_long hd hlong⟩

/-- Settles O4: the map's bytes are evaluated; the count field is the length decoder's. -/
theorem opcodeMapMeetsTheConstraints : Obligations.OpcodeMapMeetsTheConstraints := by
  refine ⟨opcodeMap_bytes, by decide, by decide, by decide, fun i => ?_⟩
  obtain ⟨op, ops, build, henc, -⟩ := dispatch_of_encode i
  rw [length_encode henc, instrLength_eq, henc, List.headD_cons, Nat.add_comm]

/-- Settles O5: each word is the encoding of its instruction, and 0x20 is no opcode byte. -/
theorem specWordsDecode : Obligations.SpecWordsDecode :=
  ⟨decode_encode_append (.ldi 0 8) [], decode_encode_append (.prn 0) [],
    decode_encode_append .hlt [], decode_encode_append (.mul 0 1) [],
    decode_encode_append (.pop 1) [], decode_encode_append (.call 1) [],
    decode_encode_append (.cmp 7 0) [], decode_encode_append (.jne 3) [],
    decode_unknown (dispatch_none_of_not_mem (by decide)) [0x00, 0x01]⟩

end Sys2Proof.Proofs
end

section
/-! PROOFS. The step (`40_engine.md` section 1, `60_exceptions.md`): a step enters the fault of the
first check that fails, or executes the instruction it fetched. -/

namespace Sys2Proof.Machine

open Sys2Proof.Claims

/-! ### Bytes at `pc` -/

theorem placed_left {s : State} {bs cs : List Byte} (h : Placed s (bs ++ cs)) : Placed s bs := by
  obtain ⟨hrun, hlen, hbytes⟩ := h
  rw [List.length_append] at hlen
  refine ⟨hrun, by omega, fun k hk => ?_⟩
  rw [hbytes k (by rw [List.length_append]; omega), List.getElem_append_left hk]

theorem placed_one_iff (s : State) (op : Byte) :
    Placed s [op] ↔ s.run = .running ∧ s.pc.toNat < 256 ∧ Memory.read s.mem s.pc.toNat = op := by
  constructor
  · rintro ⟨hrun, hlen, hbytes⟩
    exact ⟨hrun, hlen, hbytes 0 Nat.zero_lt_one⟩
  · rintro ⟨hrun, hpc, hop⟩
    refine ⟨hrun, hpc, fun k hk => ?_⟩
    obtain rfl : k = 0 := Nat.lt_one_iff.mp hk
    exact hop

/-- A step at the encoding of an instruction is `exec` of it. -/
theorem step_of_placed {s : State} {i : Instr} (h : Placed s (encode i)) : step s = exec i s :=
  step_of_fetch_ok h.1 ((fetch_ok_iff s i).mpr h.2)

/-- What was fetched is encoded by the byte at `pc` and as many bytes after it as that counts. -/
theorem encode_of_fetch {s : State} {i : Instr} (hf : fetch s = .ok i) :
    let op := Memory.read s.mem s.pc.toNat
    op.toNat ∈ opcodeBytes ∧ s.pc.toNat + 1 + operandCount op ≤ 256 ∧
      encode i = op :: [Memory.read s.mem (s.pc.toNat + 1),
        Memory.read s.mem (s.pc.toNat + 2)].take (operandCount op) := by
  obtain ⟨hlen, hbytes⟩ := (fetch_ok_iff s i).mp hf
  obtain ⟨op, ops, build, henc, hd, hops, -⟩ := dispatch_of_encode i
  have hn := operandCount_le_two hd
  simp only [henc, List.length_cons] at hlen hbytes
  obtain rfl : Memory.read s.mem s.pc.toNat = op := hbytes 0 (Nat.succ_pos _)
  refine ⟨(exists_dispatch_iff _).mp ⟨build, hd⟩, by omega, ?_⟩
  rw [henc, ← hops]
  match ops, hops ▸ hn with
  | [], _ => rfl
  | [a], _ => rw [← show _ = a from hbytes 1 (by simp)]; rfl
  | [a, b], _ =>
    rw [← show _ = a from hbytes 1 (by simp), ← show _ = b from hbytes 2 (by simp)]; rfl

/-! ### Fault entry -/

/-- A fault is recorded and nothing else changes (`60_exceptions.md` R146). -/
theorem takeFault_entered (s : State) (r : Raised) :
    FaultEntered s (takeFault s r) r.kind r.info :=
  ⟨⟨rfl, rfl⟩, fun _ => rfl, rfl, fun _ => rfl, rfl, rfl⟩

/-! ### The checks of a step and the fetch -/

/-- How many of the operand bytes of an opcode byte are register selectors: both of ADD, MUL and
CMP, the first one otherwise (the table of `60_exceptions.md` R143). -/
def selectorCount (op : Byte) : Nat :=
  if op.toNat ∈ [0xA0, 0xA2, 0xA7] then 2 else min 1 (operandCount op)

theorem selectors_eq_take {i : Instr} {op : Byte} {ops : List Byte} (h : encode i = op :: ops) :
    i.selectors = ops.take (selectorCount op) := by
  cases i <;> cases h <;> rfl

theorem operandCount_of_two_selectors {op : Byte} (h : op.toNat ∈ [0xA0, 0xA2, 0xA7]) :
    operandCount op = 2 := by
  simp only [List.mem_cons, List.not_mem_nil, or_false] at h
  rw [operandCount_eq]
  omega

/-- The fault the fetch raises is that of the first check that fails. -/
theorem firstFault_of_fetch_error {s : State} {r : Raised} (hf : fetch s = .error r) :
    firstFault s = some (r.kind, r.info) := by
  rcases Nat.lt_or_ge s.pc.toNat 256 with hpc | hpc
  swap
  · rw [fetch_beyond s hpc] at hf
    cases hf
    simp [firstFault, hpc]
  by_cases hop : (Memory.read s.mem s.pc.toNat).toNat ∈ opcodeBytes
  swap
  · rw [fetch_unknown s hpc (dispatch_none_of_not_mem hop)] at hf
    cases hf
    rw [firstFault, if_neg (by omega), if_pos hop]
  obtain ⟨build, hd⟩ := (exists_dispatch_iff _).mpr hop
  have hn := operandCount_le_two hd
  rw [fetch_known s hpc hd] at hf
  rw [firstFault, if_neg (by omega), if_neg (not_not.mpr hop), ← operandCount_eq]
  generalize operandCount (Memory.read s.mem s.pc.toNat) = n at hf hn
  match n, hn with
  | 0, _ => cases hf
  | n + 1, _ =>
    rcases Nat.lt_or_ge (s.pc.toNat + 1) 256 with h1 | h1
    swap
    · rw [fetchOperands_noFirst s (by omega) h1] at hf
      cases hf
      rw [if_pos (by omega)]
    match n with
    | 0 => rw [fetchOperands_one s h1] at hf; cases hf
    | 1 =>
      rcases Nat.lt_or_ge (s.pc.toNat + 2) 256 with h2 | h2
      · rw [fetchOperands_two s h2] at hf; cases hf
      · rw [fetchOperands_noSecond s h1 h2] at hf
        cases hf
        rw [if_neg (by omega), if_pos (by omega)]

/-- Once an instruction is fetched, the checks that are left are those of its register selectors. -/
theorem firstFault_of_fetch_ok {s : State} {i : Instr} (hf : fetch s = .ok i) :
    firstFault s = (firstIllegal i).map fun v => (.invalidRegister, v.toNat) := by
  obtain ⟨hop, hin, henc⟩ := encode_of_fetch hf
  have hsel := selectors_eq_take henc
  rw [firstFault, if_neg (by omega), if_neg (not_not.mpr hop), ← operandCount_eq, if_neg (by omega),
    if_neg (by omega), firstIllegal, hsel, selectorCount]
  generalize Memory.read s.mem (s.pc.toNat + 1) = a
  generalize Memory.read s.mem (s.pc.toNat + 2) = b
  by_cases htwo : (Memory.read s.mem s.pc.toNat).toNat ∈ [0xA0, 0xA2, 0xA7]
  · rw [operandCount_of_two_selectors htwo]
    by_cases ha : 8 ≤ a.toNat <;> by_cases hb : 8 ≤ b.toNat <;> simp [htwo, ha, hb]
  · rcases Nat.eq_zero_or_pos (operandCount (Memory.read s.mem s.pc.toNat)) with hn | hn
    · simp [htwo, hn]
    · obtain ⟨n, hn⟩ := Nat.exists_eq_add_of_lt hn
      by_cases ha : 8 ≤ a.toNat <;> simp [htwo, hn, ha]

/-- A step enters the fault of the first check that fails, whichever phase checks it
(`60_exceptions.md` R147). -/
theorem step_of_firstFault {s : State} (hrun : s.run = .running) {k : FaultKind} {v : Nat}
    (hff : firstFault s = some (k, v)) : step s = .next (takeFault s ⟨k, v⟩) := by
  cases hf : fetch s with
  | error r =>
    rw [firstFault_of_fetch_error hf] at hff
    cases hff
    exact step_of_fetch_error hrun hf
  | ok i =>
    rw [firstFault_of_fetch_ok hf, Option.map_eq_some_iff] at hff
    obtain ⟨w, hw, hkv⟩ := hff
    cases hkv
    rw [step_of_fetch_ok hrun hf]
    exact exec_of_firstIllegal s hw

/-- When no check fails, an instruction is fetched and its selectors all name registers. -/
theorem fetch_of_no_firstFault {s : State} (hff : firstFault s = none) :
    ∃ i, fetch s = .ok i ∧ firstIllegal i = none := by
  cases hf : fetch s with
  | error r => rw [firstFault_of_fetch_error hf] at hff; cases hff
  | ok i => exact ⟨i, rfl, Option.map_eq_none_iff.mp ((firstFault_of_fetch_ok hf).symm.trans hff)⟩

/-! ### An instruction whose selectors name registers -/

/-- `t` has the fault record of `s`, and its run status too, unless the instruction is HLT. -/
def StatusAfter (s : State) (i : Instr) (t : State) : Prop :=
  t.fault = s.fault ∧ t.run = if i = .hlt then .halted else s.run

/-- With legal selectors `exec` answers a next state, records no fault, and stops the engine for HLT
alone (`40_engine.md` R85, `41_machine_control.md` R101). -/
theorem exec_of_legal (s : State) {i : Instr} (hi : firstIllegal i = none) :
    ∃ t, exec i s = .next t ∧ StatusAfter s i t := by
  obtain ⟨t, ht, hstatus⟩ := exec_forall s
    (P := fun i t => firstIllegal i = none → StatusAfter s i t)
    (bad := fun i v hv hi => by rw [hv] at hi; cases hi)
    (nop := fun _ => ⟨rfl, rfl⟩)
    (hlt := fun _ => ⟨rfl, rfl⟩)
    (ldi := fun _ _ _ _ _ => ⟨rfl, rfl⟩)
    (prn := fun _ _ _ _ => ⟨rfl, rfl⟩)
    (add := fun _ _ _ _ _ _ _ => ⟨rfl, rfl⟩)
    (mul := fun _ _ _ _ _ _ _ => ⟨rfl, rfl⟩)
    (push := fun _ _ _ _ => ⟨rfl, rfl⟩)
    (pop := fun _ _ _ _ => ⟨rfl, rfl⟩)
    (call := fun _ _ _ _ => ⟨rfl, rfl⟩)
    (ret := fun _ => ⟨rfl, rfl⟩)
    (cmp := fun _ _ _ _ _ _ _ => ⟨rfl, rfl⟩)
    (jmp := fun _ _ _ _ => ⟨rfl, rfl⟩)
    (jeqTaken := fun _ _ _ _ _ => ⟨rfl, rfl⟩)
    (jeqUntaken := fun _ _ _ _ _ => ⟨rfl, rfl⟩)
    (jneTaken := fun _ _ _ _ _ => ⟨rfl, rfl⟩)
    (jneUntaken := fun _ _ _ _ _ => ⟨rfl, rfl⟩)
    i
  exact ⟨t, ht, hstatus hi⟩

/-- Where a completed instruction leaves `pc`: behind its own bytes, or, for HLT, CALL, RET and the
jumps alone, where it was or at the address a byte gives (`40_engine.md` R86). -/
def PcAfter (s : State) (i : Instr) (t : State) : Prop :=
  t.pc = s.pc + BitVec.ofNat 9 (encode i).length ∨
    (((encode i).headD 0).toNat ∈ [0x01, 0x50, 0x11, 0x54, 0x55, 0x56] ∧
      (t.pc = s.pc ∨ ∃ v, t.pc = target v))

theorem exec_pcAfter {s t : State} {i : Instr} (hi : firstIllegal i = none)
    (h : exec i s = .next t) : PcAfter s i t := by
  obtain ⟨t', ht', hpc⟩ := exec_forall s (P := fun i t => firstIllegal i = none → PcAfter s i t)
    (bad := fun i v hv hi => by rw [hv] at hi; cases hi)
    (nop := fun _ => .inl rfl)
    (hlt := fun _ => .inr ⟨by decide, .inl rfl⟩)
    (ldi := fun _ _ _ _ _ => .inl rfl)
    (prn := fun _ _ _ _ => .inl rfl)
    (add := fun _ _ _ _ _ _ _ => .inl rfl)
    (mul := fun _ _ _ _ _ _ _ => .inl rfl)
    (push := fun _ _ _ _ => .inl rfl)
    (pop := fun _ _ _ _ => .inl rfl)
    (call := fun _ _ _ _ => .inr ⟨by simp [encode, OPC_CALL], .inr ⟨_, rfl⟩⟩)
    (ret := fun _ => .inr ⟨by decide, .inr ⟨_, rfl⟩⟩)
    (cmp := fun _ _ _ _ _ _ _ => .inl rfl)
    (jmp := fun _ _ _ _ => .inr ⟨by simp [encode, OPC_JMP], .inr ⟨_, rfl⟩⟩)
    (jeqTaken := fun _ _ _ _ _ => .inr ⟨by simp [encode, OPC_JEQ], .inr ⟨_, rfl⟩⟩)
    (jeqUntaken := fun _ _ _ _ _ => .inl rfl)
    (jneTaken := fun _ _ _ _ _ => .inr ⟨by simp [encode, OPC_JNE], .inr ⟨_, rfl⟩⟩)
    (jneUntaken := fun _ _ _ _ _ => .inl rfl)
    i
  cases h.symm.trans ht'
  exact hpc hi

/-! ### All a step can do -/

/-- A step that answers a next state began in a running engine, and entered the fault of the first
check that fails, or fetched an instruction whose selectors name registers and completed it. -/
theorem step_cases {s t : State} (h : step s = .next t) :
    s.run = .running ∧
      ((∃ k v, firstFault s = some (k, v) ∧ t = takeFault s ⟨k, v⟩) ∨
        ∃ i, fetch s = .ok i ∧ firstIllegal i = none ∧ exec i s = .next t ∧ StatusAfter s i t) := by
  obtain ⟨hrun, -⟩ := step_next_cases h
  refine ⟨hrun, ?_⟩
  cases hff : firstFault s with
  | some kv => exact .inl ⟨kv.1, kv.2, rfl,
      Host.Outcome.next.inj (h.symm.trans (step_of_firstFault hrun hff))⟩
  | none =>
    obtain ⟨i, hf, hi⟩ := fetch_of_no_firstFault hff
    obtain ⟨t', ht', hstatus⟩ := exec_of_legal s hi
    rw [step_of_fetch_ok hrun hf] at h
    cases h.symm.trans ht'
    exact .inr ⟨i, hf, hi, h, hstatus⟩

/-- A running engine that completes an instruction is not faulted by it. -/
theorem StatusAfter.run_ne_faulted {s t : State} {i : Instr} (hrun : s.run = .running)
    (h : StatusAfter s i t) : t.run ≠ .faulted := by
  rw [h.2, hrun]
  split <;> decide

/-- A running engine has a step (`40_engine.md` R80). -/
theorem exists_step {s : State} (hrun : s.run = .running) : ∃ t, step s = .next t := by
  cases hff : firstFault s with
  | some kv => exact ⟨_, step_of_firstFault hrun hff⟩
  | none =>
    obtain ⟨i, hf, hi⟩ := fetch_of_no_firstFault hff
    obtain ⟨t, ht, -⟩ := exec_of_legal s hi
    exact ⟨t, (step_of_fetch_ok hrun hf).trans ht⟩

/-! ### Runs -/

/-- A run in two parts is one run. -/
theorem runSteps_add (s : State) (k j : Nat) : runSteps (k + j) s = runSteps j (runSteps k s) := by
  induction k generalizing s with
  | zero => rw [Nat.zero_add, runSteps_zero]
  | succ k ih =>
    by_cases hrun : s.run = .running
    · obtain ⟨t, ht⟩ := exists_step hrun
      rw [Nat.add_right_comm, runSteps_next ht, runSteps_next ht, ih]
    · rw [runSteps_not_running hrun, runSteps_not_running hrun, runSteps_not_running hrun]

theorem run_ne_running_of_ended {s : State} (h : Ended s) : s.run ≠ .running := by
  rcases h with h | h <;> rw [h] <;> decide

end Sys2Proof.Machine

namespace Sys2Proof.Proofs

open Sys2Proof.Machine Sys2Proof.Claims

/-- Settles O9: what decodes is the encoding of the instruction, and that is what is fetched. -/
theorem stepRunsTheDecodedInstruction : Obligations.StepRunsTheDecodedInstruction := by
  intro s bs rest i hplaced hdec
  rw [eq_encode_append_of_decode hdec] at hplaced
  exact step_of_placed (placed_left hplaced)

/-- Settles O10: the bounds check of the fetch is the first one. -/
theorem fetchAt256Faults : Obligations.FetchAt256Faults := by
  intro s hrun hpc
  have hff : firstFault s = some (.outOfRange, 256) := by simp [firstFault, hpc]
  exact ⟨_, step_of_firstFault hrun hff, rfl, rfl⟩

/-- Settles O11: the look-up fails before any operand byte is read. -/
theorem unknownOpcodeFaults : Obligations.UnknownOpcodeFaults := by
  refine ⟨dispatch_none_of_not_mem (by decide), fun s op hplaced hd => ?_⟩
  obtain ⟨hrun, hpc, rfl⟩ := (placed_one_iff s op).mp hplaced
  exact ⟨_, step_of_fetch_error hrun (fetch_unknown s hpc hd), rfl, rfl⟩

/-- Settles O12: the operand byte at 256 is the first or the second one, and both are checked before
the selectors. -/
theorem operandBeyondMemoryFaults : Obligations.OperandBeyondMemoryFaults := by
  intro s op ⟨hrun, hpc, hcut, hop⟩ hmem
  have hn : op.toNat / 64 ≤ 2 := by
    obtain ⟨build, hd⟩ := (exists_dispatch_iff op).mpr hmem
    exact operandCount_eq op ▸ operandCount_le_two hd
  have hff : firstFault s = some (.outOfRange, 256) := by
    rw [firstFault, hop, if_neg (by omega), if_neg (not_not.mpr hmem)]
    by_cases hfirst : 256 ≤ s.pc.toNat + 1
    · rw [if_pos (by omega), show s.pc.toNat + 1 = 256 by omega]
    · rw [if_neg (by omega), if_pos (by omega), show s.pc.toNat + 2 = 256 by omega]
  exact ⟨_, step_of_firstFault hrun hff, rfl, rfl⟩

/-- Settles O13: the first illegal selector is the fault of every instruction that has one, and an
instruction that has none completes. -/
theorem invalidRegisterFaults : Obligations.InvalidRegisterFaults := by
  intro i s
  refine ⟨fun v hv => ⟨_, exec_of_firstIllegal s hv, takeFault_entered s _⟩, fun hi => ?_⟩
  obtain ⟨t, ht, hfault, hrun⟩ := exec_of_legal s hi
  refine ⟨t, ht, hfault, fun hfaulted => ?_⟩
  rw [hrun] at hfaulted
  split at hfaulted
  · cases hfaulted
  · exact hfaulted

/-- Settles O14: a step that completes an instruction does not fault, any other is fault entry. -/
theorem faultsArePrecise : Obligations.FaultsArePrecise := by
  intro s t h hfaulted
  obtain ⟨hrun, ⟨k, v, -, rfl⟩ | ⟨i, -, -, -, hstatus⟩⟩ := step_cases h
  · exact ⟨k, v, takeFault_entered s _⟩
  · exact absurd hfaulted (hstatus.run_ne_faulted hrun)

/-- Settles O15: the checks fail in the order of the list, and after the last one the instruction
completes. -/
theorem firstFailedCheckDecides : Obligations.FirstFailedCheckDecides := by
  intro s hrun
  constructor
  · intro k v hff
    exact ⟨_, step_of_firstFault hrun hff, takeFault_entered s _⟩
  · intro hff
    obtain ⟨i, hf, hi⟩ := fetch_of_no_firstFault hff
    obtain ⟨t, ht, hstatus⟩ := exec_of_legal s hi
    exact ⟨t, (step_of_fetch_ok hrun hf).trans ht, hstatus.run_ne_faulted hrun, hstatus.1⟩

/-- Settles O16: a step begins in a running engine, and a running engine has one. -/
theorem engineStepsExactlyWhenRunning : Obligations.EngineStepsExactlyWhenRunning := by
  intro s
  constructor
  · rintro ⟨t, h⟩
    exact (step_next_cases h).1
  · exact exists_step

/-- Settles O17: a faulted engine is not running, and a reset does not look at the state. -/
theorem noReturnFromAFault : Obligations.NoReturnFromAFault := by
  intro s hfaulted
  refine ⟨fun t h => ?_, runSteps_not_running (by rw [hfaulted]; decide), fun image u => rfl⟩
  rw [step_faulted hfaulted] at h
  cases h

/-- Settles O18: the instruction lies inside memory, so the sum is at most 256 and does not wrap in
nine bits. -/
theorem advanceNeverWraps : Obligations.AdvanceNeverWraps := by
  intro s t op hplaced h hrun hop
  obtain ⟨-, hpc, rfl⟩ := (placed_one_iff s op).mp hplaced
  obtain ⟨-, ⟨k, v, -, rfl⟩ | ⟨i, hf, hi, hexec, -⟩⟩ := step_cases h
  · cases hrun
  obtain ⟨-, hin, henc⟩ := encode_of_fetch hf
  rcases exec_pcAfter hi hexec with hadv | ⟨hjump, -⟩
  · rw [hadv, length_encode henc, instrLength, BitVec.toNat_add, BitVec.toNat_ofNat,
      ← operandCount_eq]
    omega
  · rw [henc, List.headD_cons] at hjump
    simp only [List.mem_cons, List.not_mem_nil, or_false] at hop hjump
    omega

/-- Settles O43: the rest of the run begins in an engine that is not running. -/
theorem endedRunStaysEnded : Obligations.EndedRunStaysEnded := by
  intro s k j hended
  rw [runSteps_add, runSteps_not_running (run_ne_running_of_ended hended)]

end Sys2Proof.Proofs
end

section
/-! PROOFS. The instructions, each by its own equation (`41_machine_control.md` to `47_jumps.md`):
where its bytes stand the step is `exec` of it, cut off by the end of memory it faults before its
selectors are looked at, and what it leaves is read off the named updates of the state. -/

namespace Sys2Proof.Machine

open Sys2Proof.Claims

/-! ### Writing one register and advancing: LDI, ADD and MUL -/

theorem advance_writeReg_frame (n : Nat) (s : State) (r : Reg) (v : Byte) :
    RegsKeptBut r s (advance n (writeReg s r v)) ∧ MemKept s (advance n (writeReg s r v)) ∧
      (advance n (writeReg s r v)).fl = s.fl ∧ (advance n (writeReg s r v)).out = s.out ∧
      StatusKept s (advance n (writeReg s r v)) :=
  ⟨fun _ hq => readReg_writeReg_ne s v hq, fun _ => rfl, rfl, rfl, rfl, rfl⟩

/-! ### The stack pointer of PUSH, CALL and RET -/

theorem readReg_pushPointer_same (s : State) : readReg (pushPointer s) 7 = readReg s 7 - 1 :=
  (readReg_writeSp_same s _).trans (aluDec_eq _)

theorem readReg_pushPointer_ne (s : State) {q : Reg} (hq : q ≠ 7) :
    readReg (pushPointer s) q = readReg s q :=
  readReg_writeSp_ne s _ hq

theorem pushAddress_eq (s : State) : pushAddress s = (readReg s 7 - 1).toNat :=
  congrArg BitVec.toNat (readReg_pushPointer_same s)

theorem readReg_callPointer_same (s : State) : readReg (callPointer s) 7 = readReg s 7 - 1 :=
  (readReg_writeSp_same _ _).trans (aluDec_eq _)

theorem readReg_callPointer_ne (s : State) {q : Reg} (hq : q ≠ 7) :
    readReg (callPointer s) q = readReg s q :=
  readReg_writeSp_ne _ _ hq

theorem readReg_retPointer_same (s : State) : readReg (retPointer s) 7 = readReg s 7 + 1 :=
  (readReg_writeSp_same s _).trans (aluInc_eq _)

theorem readReg_retPointer_ne (s : State) {q : Reg} (hq : q ≠ 7) :
    readReg (retPointer s) q = readReg s q :=
  readReg_writeSp_ne s _ hq

theorem retAddress_eq (s : State) : retAddress s = (readReg s 7 + 1).toNat :=
  congrArg BitVec.toNat (readReg_retPointer_same s)

end Sys2Proof.Machine

namespace Sys2Proof.Proofs

open Sys2Proof.Machine Sys2Proof.Claims

/-! ### Machine control -/

/-- Settles O19: NOP's body is empty, so only the advance is left. -/
theorem nopOnlyAdvances : Obligations.NopOnlyAdvances := by
  intro s
  exact ⟨step_of_placed (i := .nop), ⟨_, execNop_eq s, rfl, fun _ => rfl, fun _ => rfl, rfl, rfl,
    ⟨rfl, rfl⟩⟩, fetchAt256Faults s⟩

/-- Settles O20: HLT changes RUN alone, and a halted engine has no step. -/
theorem hltHalts : Obligations.HltHalts := by
  intro s
  have hstop : (halt s).run ≠ .running := nofun
  refine ⟨step_of_placed (i := .hlt), halt s, execHlt_eq s, rfl, rfl, fun _ => rfl,
    fun _ => rfl, rfl, rfl, rfl, fun u h => ?_, runSteps_not_running hstop⟩
  exact hstop (step_next_cases h).1

/-! ### Data movement -/

/-- Settles O21: LDI writes its immediate to one register; PRN of that register reads it back. -/
theorem ldiLoadsItsImmediate : Obligations.LdiLoadsItsImmediate := by
  intro s a imm
  refine ⟨step_of_placed (i := .ldi a imm), fun r ha => ?_,
    fun ha => ⟨_, execLdi_bad s imm ha, rfl, rfl⟩,
    fun hcut => operandBeyondMemoryFaults s 0x82 hcut (by decide)⟩
  obtain ⟨hregs, hmem, hfl, hout, hstatus⟩ := advance_writeReg_frame 2 s r imm
  refine ⟨_, execLdi_ok s imm ha, readReg_writeReg_same s r imm, hregs, hmem, hfl, hout, hstatus,
    rfl, _, execPrn_ok _ ha, ?_⟩
  rw [advance_out, emit_out, readReg_advance, readReg_writeReg_same, hout]

/-- Settles O22: PRN changes the output alone. -/
theorem prnEmitsItsRegister : Obligations.PrnEmitsItsRegister := by
  intro s a
  refine ⟨step_of_placed (i := .prn a), fun r ha => ?_,
    fun ha => ⟨_, execPrn_bad s ha, ⟨rfl, rfl⟩, rfl⟩,
    fun hcut => operandBeyondMemoryFaults s 0x47 hcut (by decide)⟩
  exact ⟨_, execPrn_ok s ha, rfl, fun _ => rfl, fun _ => rfl, rfl, ⟨rfl, rfl⟩, rfl⟩

/-! ### Arithmetic -/

/-- Settles O23: ADD writes the ALU's sum to one register. -/
theorem addAddsModulo256 : Obligations.AddAddsModulo256 := by
  intro s a b
  refine ⟨step_of_placed (i := .add a b), fun r q ha hb => ?_,
    fun ha => ⟨_, execAdd_badA s b ha, rfl, rfl⟩,
    fun ha hb => ⟨_, execAdd_badB (r := ⟨a.toNat, ha⟩) s rfl hb, rfl, rfl⟩,
    fun hcut => operandBeyondMemoryFaults s 0xA0 hcut (by decide)⟩
  obtain ⟨hregs, hmem, hfl, hout, hstatus⟩ :=
    advance_writeReg_frame 2 s r (aluAdd (readReg s r) (readReg s q))
  refine ⟨_, execAdd_ok s ha hb, ?sum, hregs, hmem, hfl, hout, hstatus, rfl⟩
  rw [readReg_advance, readReg_writeReg_same, aluAdd_toNat]

/-- Settles O24: MUL writes the ALU's product to one register. -/
theorem mulMultipliesModulo256 : Obligations.MulMultipliesModulo256 := by
  intro s a b
  refine ⟨step_of_placed (i := .mul a b), fun r q ha hb => ?_,
    fun ha => ⟨_, execMul_badA s b ha, rfl, rfl⟩,
    fun ha hb => ⟨_, execMul_badB (r := ⟨a.toNat, ha⟩) s rfl hb, rfl, rfl⟩,
    fun hcut => operandBeyondMemoryFaults s 0xA2 hcut (by decide)⟩
  obtain ⟨hregs, hmem, hfl, hout, hstatus⟩ :=
    advance_writeReg_frame 2 s r (aluMul (readReg s r) (readReg s q))
  refine ⟨_, execMul_ok s ha hb, ?product, hregs, hmem, hfl, hout, hstatus, rfl⟩
  rw [readReg_advance, readReg_writeReg_same, aluMul_toNat]

/-! ### Stack -/

/-- Settles O25: PUSH decrements the pointer and stores one byte where it then points. -/
theorem pushDecrementsThenStores : Obligations.PushDecrementsThenStores := by
  intro s a
  refine ⟨step_of_placed (i := .push a), fun r ha => ?_, fun ha => ⟨_, execPush_bad s ha, rfl, rfl⟩,
    fun hcut => operandBeyondMemoryFaults s 0x45 hcut (by decide)⟩
  refine ⟨_, execPush_ok s ha, readReg_pushPointer_same s, fun q hq => readReg_pushPointer_ne s hq,
    pushAddress_eq s, ?stored, ?others, rfl, rfl, ⟨rfl, rfl⟩, rfl⟩
  case stored => exact Memory.read_write_same s.mem (pushAddress s) (pushValue s r)
  case others => exact fun c hc => Memory.read_write_ne s.mem (pushValue s r) hc

/-- Settles O26: POP writes the popped byte, then increments the pointer; POP R7 increments the byte
it has just written. -/
theorem popLoadsThenIncrements : Obligations.PopLoadsThenIncrements := by
  intro s a
  refine ⟨step_of_placed (i := .pop a), fun r ha => ?_, fun ha => ⟨_, execPop_bad s ha, rfl, rfl⟩,
    fun hcut => operandBeyondMemoryFaults s 0x46 hcut (by decide)⟩
  refine ⟨_, execPop_ok s ha, fun hr => ⟨?loaded, ?pointer⟩, ?both, ?others, fun _ => rfl, rfl, rfl,
    ⟨rfl, rfl⟩, rfl⟩
  case loaded =>
    rw [readReg_advance, readReg_writeSp_ne _ _ hr, readReg_writeReg_same]
    rfl
  case pointer =>
    rw [readReg_advance, readReg_writeSp_same, aluInc_eq, readSp_eq,
      readReg_writeReg_ne _ _ hr.symm]
  case both =>
    rintro rfl
    rw [readReg_advance, readReg_writeSp_same, aluInc_eq, readSp_eq, readReg_writeReg_same]
    rfl
  case others =>
    intro q hqr hq7
    rw [readReg_advance, readReg_writeSp_ne _ _ hq7, readReg_writeReg_ne _ _ hqr]

/-! ### Subroutine -/

/-- Settles O27: CALL stores at the pointer, decrements it and jumps. -/
theorem callStoresThenDecrements : Obligations.CallStoresThenDecrements := by
  intro s a
  refine ⟨step_of_placed (i := .call a), fun r ha => ?_, fun ha => ⟨_, execCall_bad s ha, rfl, rfl⟩,
    fun hcut => operandBeyondMemoryFaults s 0x50 hcut (by decide)⟩
  refine ⟨_, execCall_ok s ha, rfl, ?stored, ?others, readReg_callPointer_same s,
    fun q hq => readReg_callPointer_ne s hq, target_toNat _, rfl, rfl, rfl, rfl⟩
  case stored =>
    rw [← aluReturnAddress_toNat]
    exact congrArg BitVec.toNat (Memory.read_write_same s.mem (callAddress s) _)
  case others => exact fun c hc => Memory.read_write_ne s.mem _ hc

/-- Settles O28: RET increments the pointer and jumps to the byte where it then points. -/
theorem retIncrementsThenLoads : Obligations.RetIncrementsThenLoads := by
  intro s
  refine ⟨step_of_placed (i := .ret), _, execRet_eq s, readReg_retPointer_same s,
    fun q hq => readReg_retPointer_ne s hq, ?_, fun _ => rfl, rfl, rfl, rfl, rfl⟩
  rw [setPc_pc, target_toNat, retAddress_eq]

/-! ### Compare -/

/-- Settles O29: CMP replaces the flags by the outcome of the comparison. -/
theorem cmpSetsExactlyOneFlag : Obligations.CmpSetsExactlyOneFlag := by
  intro s a b
  refine ⟨step_of_placed (i := .cmp a b), fun r q ha hb => ?_,
    fun ha => ⟨_, execCmp_badA s b ha, ⟨rfl, rfl⟩, rfl⟩,
    fun ha hb => ⟨_, execCmp_badB (r := ⟨a.toNat, ha⟩) s rfl hb, ⟨rfl, rfl⟩, rfl⟩,
    fun hcut => operandBeyondMemoryFaults s 0xA7 hcut (by decide)⟩
  exact ⟨_, execCmp_ok s ha hb, compareFlags_less, compareFlags_greater, compareFlags_equal,
    fun _ => rfl, fun _ => rfl, rfl, ⟨rfl, rfl⟩, rfl⟩

/-! ### Jumps -/

/-- Settles O30: JMP changes `pc` alone. -/
theorem jmpGoesToItsRegister : Obligations.JmpGoesToItsRegister := by
  intro s a
  refine ⟨step_of_placed (i := .jmp a), fun r ha => ?_, fun ha => ⟨_, execJmp_bad s ha, rfl, rfl⟩,
    fun hcut => operandBeyondMemoryFaults s 0x54 hcut (by decide)⟩
  exact ⟨_, execJmp_ok s ha, target_toNat _, fun _ => rfl, fun _ => rfl, rfl, rfl, rfl, rfl⟩

/-- Settles O31: JEQ jumps or advances, by the flag E. -/
theorem jeqJumpsWhenEqual : Obligations.JeqJumpsWhenEqual := by
  intro s a
  refine ⟨step_of_placed (i := .jeq a), fun r ha => ?_, fun ha => ⟨_, execJeq_bad s ha, rfl, rfl⟩,
    fun hcut => operandBeyondMemoryFaults s 0x55 hcut (by decide)⟩
  cases he : s.fl.e with
  | true =>
    exact ⟨_, execJeq_taken ha he, fun _ => target_toNat _, nofun, fun _ => rfl, fun _ => rfl, rfl,
      rfl, rfl, rfl⟩
  | false =>
    exact ⟨_, execJeq_untaken ha he, nofun, fun _ => rfl, fun _ => rfl, fun _ => rfl, rfl, rfl, rfl,
      rfl⟩

/-- Settles O32: JNE jumps where JEQ advances. -/
theorem jneJumpsWhenNotEqual : Obligations.JneJumpsWhenNotEqual := by
  intro s a
  refine ⟨step_of_placed (i := .jne a), fun r ha => ?_, fun ha => ⟨_, execJne_bad s ha, rfl, rfl⟩,
    fun hcut => operandBeyondMemoryFaults s 0x56 hcut (by decide)⟩
  cases he : s.fl.e with
  | true =>
    exact ⟨_, execJne_untaken ha he, nofun, fun _ => rfl, fun _ => rfl, fun _ => rfl, rfl, rfl, rfl,
      rfl⟩
  | false =>
    exact ⟨_, execJne_taken ha he, fun _ => target_toNat _, nofun, fun _ => rfl, fun _ => rfl, rfl,
      rfl, rfl, rfl⟩

end Sys2Proof.Proofs
end

section
/-! PROOFS. Pairs of instructions and short runs (`44_stack.md`, `45_subroutine.md`, `20_memory.md`
section 10, `70_reset_and_hazards.md` section 4), from what the single instructions do. -/

namespace Sys2Proof.Machine

/-- The byte after a two-byte instruction, in the nine bits of `pc` (`10_state.md` R15). -/
theorem pc_add_two_toNat (pc : PcWord) : (pc + 2).toNat = (pc.toNat + 2) % 512 :=
  BitVec.toNat_add pc 2

/-- Where 0 stands at `pc`, the step only advances (`41_machine_control.md` R100). -/
theorem step_of_zero {s : State} (hrun : s.run = .running) (hpc : s.pc.toNat < 256)
    (hzero : Memory.read s.mem s.pc.toNat = 0) : step s = .next (advance 0 s) :=
  step_of_placed (i := .nop) ((placed_one_iff s 0).mpr ⟨hrun, hpc, hzero⟩)

/-- Through `d` zero cells up to the end of memory, and one step more: the fetch at 256 faults, and
nothing but `pc`, RUN and FAULT has changed (`70_reset_and_hazards.md` section 4). -/
theorem runSteps_zeros (d : Nat) {s : State} (hrun : s.run = .running)
    (hend : s.pc.toNat + d = 256)
    (hzeros : ∀ a, s.pc.toNat ≤ a → a < 256 → Memory.read s.mem a = 0) :
    runSteps (d + 1) s = takeFault (setPc s 256) ⟨.outOfRange, 256⟩ := by
  induction d generalizing s with
  | zero =>
    have hpc : s.pc = 256 := BitVec.eq_of_toNat_eq hend
    have hfetch : fetch s = .error ⟨.outOfRange, 256⟩ := by
      rw [fetch_beyond s (by omega), hpc]; rfl
    rw [runSteps_next (step_of_fetch_error hrun hfetch), runSteps_zero, ← hpc]
    rfl
  | succ d ih =>
    have hnext : (advance 0 s).pc.toNat = s.pc.toNat + 1 := by
      rw [advance_pc, BitVec.toNat_add, BitVec.toNat_ofNat]
      omega
    have hzero := hzeros s.pc.toNat (Nat.le_refl _) (by omega)
    rw [runSteps_next (step_of_zero hrun (by omega) hzero),
      ih (s := advance 0 s) hrun (by omega) fun a ha => hzeros a (by omega)]
    rfl

/-- A step that answers the state it began in repeats forever. -/
theorem runSteps_of_step_self {s : State} (h : step s = .next s) (k : Nat) : runSteps k s = s := by
  induction k with
  | zero => rfl
  | succ k ih => rw [runSteps_next h, ih]

end Sys2Proof.Machine

namespace Sys2Proof.Proofs

open Sys2Proof.Machine Sys2Proof.Claims

/-- Settles O33: POP reads the cell PUSH wrote, and its increment undoes PUSH's decrement. -/
theorem pushPopMovesARegister : Obligations.PushPopMovesARegister := by
  intro s a b r q ha hb hr hq
  obtain ⟨-, hpush, -⟩ := pushDecrementsThenStores s a
  obtain ⟨t, ht, htsp, htregs, haddr, hcell, htmem, htfl, htout, ⟨htrun, htfault⟩, htpc⟩ :=
    hpush r ha
  obtain ⟨-, hpop, -⟩ := popLoadsThenIncrements t b
  obtain ⟨u, hu, hload, -, huregs, humem, hufl, huout, ⟨hurun, hufault⟩, hupc⟩ := hpop q hb
  obtain ⟨huq, husp⟩ := hload hq
  have hpushed : Memory.read t.mem (readReg s 7 - 1).toNat = readReg s r := by
    rw [← haddr, hcell, htregs r hr]
  refine ⟨t, u, ht, hu, ?loaded, ?regs, ?pc, ?cell, ?mem, hufl.trans htfl, huout.trans htout,
    hurun.trans htrun, hufault.trans htfault⟩
  case loaded => rw [huq, htsp, hpushed]
  case regs =>
    intro x hx
    by_cases hx7 : x = 7
    · rw [hx7, husp, htsp, BitVec.sub_add_cancel]
    · rw [huregs x hx hx7, htregs x hx7]
  case pc => rw [hupc, htpc, BitVec.add_assoc]; rfl
  case cell => rw [humem, hpushed]
  case mem => exact fun c hc => (humem c).trans (htmem c hc)

/-- Settles O34: RET's increment undoes CALL's decrement, so it reads the cell CALL wrote. -/
theorem retUndoesCall : Obligations.RetUndoesCall := by
  intro s t u a r ha hcall husp hucell
  obtain ⟨-, hspec, -⟩ := callStoresThenDecrements s a
  obtain ⟨t', ht', haddr, hcell, -, htsp, -⟩ := hspec r ha
  cases hcall.symm.trans ht'
  obtain ⟨-, v, hv, hvsp, -, hvpc, -⟩ := retIncrementsThenLoads u
  have hback : readReg u 7 + 1 = readReg s 7 := by rw [husp, htsp, BitVec.sub_add_cancel]
  refine ⟨v, hv, ?_, hvsp.trans hback⟩
  rw [hvpc, hback, ← haddr, hucell, hcell]

/-- Settles O35: CALL stores before its decrement, so in the cell PUSH has just filled. -/
theorem callOverwritesThePushedByte : Obligations.CallOverwritesThePushedByte := by
  intro s a b r q ha hb
  obtain ⟨-, hpush, -⟩ := pushDecrementsThenStores s a
  obtain ⟨t, ht, htsp, -, haddr, hcell, -, -, -, -, htpc⟩ := hpush r ha
  obtain ⟨-, hcall, -⟩ := callStoresThenDecrements t b
  obtain ⟨u, hu, hcaddr, hucell, -⟩ := hcall q hb
  have hsame : pushAddress s = callAddress t := by rw [haddr, hcaddr, htsp]
  refine ⟨t, u, ht, hu, hcell, ?_⟩
  rw [hsame, hucell, htpc, pc_add_two_toNat (s.pc + 2)]
  omega

/-- Settles O36: the byte PUSH stored stands at the `pc` PUSH left. -/
theorem pushedByteIsFetchedNext : Obligations.PushedByteIsFetchedNext := by
  intro s a r i hplaced ha hr hpc haddr hdec
  obtain ⟨hstep, hpush, -⟩ := pushDecrementsThenStores s a
  obtain ⟨t, ht, -, htregs, hpushaddr, hcell, -, -, -, ⟨htrun, -⟩, htpc⟩ := hpush r ha
  have hnext : t.pc.toNat = s.pc.toNat + 2 := by
    rw [htpc, pc_add_two_toNat]
    omega
  have hbyte : Memory.read t.mem t.pc.toNat = readReg s r := by
    rw [hnext, ← haddr, ← hpushaddr, hcell, htregs r hr]
  have htplaced : Placed t [readReg s r] :=
    (placed_one_iff t _).mpr ⟨htrun.trans hplaced.1, by omega, hbyte⟩
  exact ⟨t, (hstep hplaced).trans ht, hnext, stepRunsTheDecodedInstruction t _ [] i htplaced hdec⟩

/-- Settles O37: the JMP sets `pc` to what it is, so its step answers the state it began in. -/
theorem jumpToItselfNeverEnds : Obligations.JumpToItselfNeverEnds := by
  intro s a r hplaced ha hself
  have htarget : target (readReg s r) = s.pc :=
    BitVec.eq_of_toNat_eq ((target_toNat _).trans hself)
  have hstep : step s = .next s := by
    rw [step_of_placed (i := .jmp a) hplaced]
    exact (execJmp_ok s ha).trans (by rw [htarget]; rfl)
  exact runSteps_of_step_self hstep

/-- Settles O38, by induction on the number of zero cells. -/
theorem zerosRunOffTheEnd : Obligations.ZerosRunOffTheEnd := by
  intro s hrun hpc hzeros
  have hrunEnds := runSteps_zeros (256 - s.pc.toNat) hrun (by omega) hzeros
  rw [show 256 - s.pc.toNat + 1 = 257 - s.pc.toNat by omega] at hrunEnds
  exact ⟨_, hrunEnds, rfl, rfl, rfl, fun _ => rfl, fun _ => rfl, rfl, rfl⟩

end Sys2Proof.Proofs
end

section
/-! PROOFS. The whole machine: what an instruction can do to memory, to the output and to the run
status, and the invariant every step keeps (`10_state.md` sections 3 to 7). -/

namespace Sys2Proof.Machine

open Sys2Proof.Claims

/-! ### Memory -/

/-- The memory of `t` is that of `s`, but for one byte where the instruction is PUSH or CALL
(`20_memory.md` R43). -/
def MemAfter (s : State) (i : Instr) (t : State) : Prop :=
  t.mem = s.mem ∨
    (∃ a v, i = .push a ∧ t.mem = Memory.write s.mem (pushAddress s) v) ∨
    ∃ a v, i = .call a ∧ t.mem = Memory.write s.mem (callAddress s) v

theorem exec_memAfter {s t : State} {i : Instr} (h : exec i s = .next t) : MemAfter s i t := by
  obtain ⟨t', ht', hmem⟩ := exec_forall s (P := MemAfter s)
    (bad := fun _ _ _ => .inl rfl)
    (nop := .inl rfl)
    (hlt := .inl rfl)
    (ldi := fun _ _ _ _ => .inl rfl)
    (prn := fun _ _ _ => .inl rfl)
    (add := fun _ _ _ _ _ _ => .inl rfl)
    (mul := fun _ _ _ _ _ _ => .inl rfl)
    (push := fun a _ _ => .inr (.inl ⟨a, _, rfl, rfl⟩))
    (pop := fun _ _ _ => .inl rfl)
    (call := fun a _ _ => .inr (.inr ⟨a, _, rfl, rfl⟩))
    (ret := .inl rfl)
    (cmp := fun _ _ _ _ _ _ => .inl rfl)
    (jmp := fun _ _ _ => .inl rfl)
    (jeqTaken := fun _ _ _ _ => .inl rfl)
    (jeqUntaken := fun _ _ _ _ => .inl rfl)
    (jneTaken := fun _ _ _ _ => .inl rfl)
    (jneUntaken := fun _ _ _ _ => .inl rfl)
    i
  cases h.symm.trans ht'
  exact hmem

theorem pushAddress_lt (s : State) : pushAddress s < 256 := BitVec.isLt _

theorem callAddress_lt (s : State) : callAddress s < 256 := BitVec.isLt _

theorem exec_keeps_wf {s t : State} {i : Instr} (h : exec i s = .next t)
    (hwf : Memory.wf s.mem = true) : Memory.wf t.mem = true := by
  rcases exec_memAfter h with hmem | ⟨a, v, -, hmem⟩ | ⟨a, v, -, hmem⟩ <;> rw [hmem]
  · exact hwf
  · exact Memory.write_keeps_wf hwf (pushAddress_lt s) v
  · exact Memory.write_keeps_wf hwf (callAddress_lt s) v

/-! ### The output -/

/-- The state with another output trace. -/
def withOut (s : State) (o : List Byte) : State := { s with out := o }

/-- The bytes `exec` of an instruction adds to the output: the register of a PRN that has one, none
otherwise (`10_state.md` R24). -/
def emitted (s : State) : Instr → List Byte
  | .prn a => (regCheck a).toOption.toList.map (readReg s)
  | _ => []

theorem emitted_prn (s : State) {a : Byte} {r : Reg} (ha : a.toNat = r.val) :
    emitted s (.prn a) = [readReg s r] := by
  rw [emitted, regCheck_ok ha]; rfl

theorem emitted_of_firstIllegal (s : State) {i : Instr} {v : Byte} (h : firstIllegal i = some v) :
    emitted s i = [] := by
  cases i with
  | prn a =>
    obtain ⟨ha, -⟩ := find_illegal_one h
    rw [emitted, regCheck_error ha]; rfl
  | _ => rfl

/-- Nothing is emitted but by a PRN that names a register. -/
theorem emitted_ne_nil {s : State} {i : Instr} (h : emitted s i ≠ []) :
    ∃ (a : Byte) (r : Reg), i = .prn a ∧ a.toNat = r.val ∧ emitted s i = [readReg s r] := by
  cases i with
  | prn a =>
    rcases regCheck_cases a with ⟨r, ha, -⟩ | ⟨-, hbad⟩
    · exact ⟨a, r, rfl, ha, emitted_prn s ha⟩
    · exact absurd (by rw [emitted, hbad]; rfl) h
  | _ => exact absurd rfl h

/-- `t` has the output of `s` and what was emitted after it, and from any other output `o` the
instruction answers the same state but for the output, `o` and what was emitted after it. -/
def OutAfter (s : State) (i : Instr) (t : State) : Prop :=
  t.out = s.out ++ emitted s i ∧
    ∀ o, exec i (withOut s o) = .next (withOut t (o ++ emitted s i))

/-- An instruction that emits nothing hands on any output. -/
theorem outAfter_of_silent {s t : State} {i : Instr} (hnone : emitted s i = [])
    (hout : t.out = s.out) (hexec : ∀ o, exec i (withOut s o) = .next (withOut t o)) :
    OutAfter s i t := by
  refine ⟨?_, fun o => ?_⟩
  · rw [hnone, List.append_nil, hout]
  · rw [hnone, List.append_nil, hexec o]

/-- Each instruction's own equation, at the other output, gives the same state but for it. -/
theorem exec_outAfter {s t : State} {i : Instr} (h : exec i s = .next t) : OutAfter s i t := by
  obtain ⟨t', ht', hout⟩ := exec_forall s (P := OutAfter s)
    (bad := fun _ _ hv => outAfter_of_silent (emitted_of_firstIllegal s hv) rfl
      fun _ => exec_of_firstIllegal _ hv)
    (nop := outAfter_of_silent rfl rfl fun _ => execNop_eq _)
    (hlt := outAfter_of_silent rfl rfl fun _ => execHlt_eq _)
    (ldi := fun _ imm _ ha => outAfter_of_silent rfl rfl fun _ => execLdi_ok _ imm ha)
    (prn := fun a r ha => by
      rw [OutAfter, emitted_prn s ha]
      exact ⟨rfl, fun _ => execPrn_ok _ ha⟩)
    (add := fun _ _ _ _ ha hb => outAfter_of_silent rfl rfl fun _ => execAdd_ok _ ha hb)
    (mul := fun _ _ _ _ ha hb => outAfter_of_silent rfl rfl fun _ => execMul_ok _ ha hb)
    (push := fun _ _ ha => outAfter_of_silent rfl rfl fun _ => execPush_ok _ ha)
    (pop := fun _ _ ha => outAfter_of_silent rfl rfl fun _ => execPop_ok _ ha)
    (call := fun _ _ ha => outAfter_of_silent rfl rfl fun _ => execCall_ok _ ha)
    (ret := outAfter_of_silent rfl rfl fun _ => execRet_eq _)
    (cmp := fun _ _ _ _ ha hb => outAfter_of_silent rfl rfl fun _ => execCmp_ok _ ha hb)
    (jmp := fun _ _ ha => outAfter_of_silent rfl rfl fun _ => execJmp_ok _ ha)
    (jeqTaken := fun _ _ ha he => outAfter_of_silent rfl rfl fun o =>
      execJeq_taken (s := withOut s o) ha he)
    (jeqUntaken := fun _ _ ha he => outAfter_of_silent rfl rfl fun o =>
      execJeq_untaken (s := withOut s o) ha he)
    (jneTaken := fun _ _ ha he => outAfter_of_silent rfl rfl fun o =>
      execJne_taken (s := withOut s o) ha he)
    (jneUntaken := fun _ _ ha he => outAfter_of_silent rfl rfl fun o =>
      execJne_untaken (s := withOut s o) ha he)
    i
  cases h.symm.trans ht'
  exact hout

/-! ### The flag register -/

/-- Whatever is compared, exactly one flag is set (`10_state.md` R19). -/
theorem compareFlags_exactlyOne (u v : Byte) : ExactlyOneFlag (compareFlags u v) := by
  rcases Nat.lt_trichotomy u.toNat v.toNat with h | h | h
  · rw [compareFlags_less h]; decide
  · rw [compareFlags_equal (BitVec.eq_of_toNat_eq h)]; decide
  · rw [compareFlags_greater h]; decide

theorem wellFormed_of_legal {i : Instr} (hi : firstIllegal i = none) : i.wellFormed = true := by
  rw [Instr.wellFormed, List.all_eq_true]
  intro b hb
  have hlegal := List.find?_eq_none.mp hi b hb
  rw [selectorLegal_iff]
  simpa using hlegal

/-- A completed instruction keeps the flags, or is CMP and sets exactly one. -/
theorem exec_flagsAfter {s t : State} {i : Instr} (hi : firstIllegal i = none)
    (h : exec i s = .next t) :
    ((∀ a b, i ≠ .cmp a b) ∧ t.fl = s.fl) ∨ ExactlyOneFlag t.fl := by
  by_cases hcmp : ∃ a b, i = .cmp a b
  · obtain ⟨a, b, rfl⟩ := hcmp
    obtain ⟨r, q, ha, hb⟩ := (cmp_wellFormed_iff a b).mp (wellFormed_of_legal hi)
    cases h.symm.trans (execCmp_ok s ha hb)
    exact .inr (compareFlags_exactlyOne _ _)
  · have hne : ∀ a b, i ≠ .cmp a b := fun a b hab => hcmp ⟨a, b, hab⟩
    exact .inl ⟨hne, exec_keeps_fl h fun a b hab _ => hne a b hab⟩

/-! ### The program counter and the fault record -/

/-- An instruction that was fetched inside memory leaves `pc` at most 256 (`10_state.md` R17). -/
theorem exec_pc_le {s t : State} {i : Instr} (hf : fetch s = .ok i) (hi : firstIllegal i = none)
    (h : exec i s = .next t) : t.pc.toNat ≤ 256 := by
  obtain ⟨hin, -⟩ := (fetch_ok_iff s i).mp hf
  rcases exec_pcAfter hi h with hpc | ⟨-, hpc | ⟨v, hpc⟩⟩
  · rw [hpc, BitVec.toNat_add, BitVec.toNat_ofNat]
    omega
  · rw [hpc]
    omega
  · rw [hpc, target_toNat]
    omega

/-- The first check that fails records information of its kind (`60_exceptions.md` R141). -/
theorem firstFault_fits {s : State} (hpc : s.pc.toNat ≤ 256) {k : FaultKind} {v : Nat}
    (hff : firstFault s = some (k, v)) : infoFits k v = true := by
  have hbyte (a : Nat) : (Memory.read s.mem a).toNat < 256 := BitVec.isLt _
  rw [firstFault] at hff
  split_ifs at hff with hbeyond hknown hfirst hsecond hregA hregB <;> cases hff
  · exact decide_eq_true (by omega)
  · exact decide_eq_true (by omega)
  · exact decide_eq_true (by omega)
  · simp [infoFits, hregA.2, hbyte]
  · simp [infoFits, hregB.2, hbyte]
  · exact decide_eq_true (hbyte _)

theorem takeFault_recordFits (s : State) {r : Raised} (h : infoFits r.kind r.info = true) :
    FaultRecordFits (takeFault s r) := by
  refine ⟨⟨fun _ => Option.some_ne_none _, fun _ => rfl⟩, fun f hf => ?_⟩
  cases hf
  exact ⟨rfl, h⟩

theorem recordFits_of_no_record {s : State} (hrun : s.run ≠ .faulted) (hfault : s.fault = none) :
    FaultRecordFits s := by
  refine ⟨⟨fun h => absurd h hrun, fun h => absurd hfault h⟩, fun f hf => ?_⟩
  rw [hfault] at hf
  cases hf

end Sys2Proof.Machine

namespace Sys2Proof

theorem encode_injective {i j : Instr} (h : encode i = encode j) : i = j := by
  have hi := decode_encode_append i []
  rw [h, decode_encode_append j []] at hi
  cases hi
  rfl

end Sys2Proof

namespace Sys2Proof.Proofs

open Sys2Proof.Machine Sys2Proof.Claims

/-- Settles O44: fault entry changes RUN and FAULT alone and records what the failed check says; a
completed instruction keeps each part of the invariant by the lemma about that part. -/
theorem stepKeepsTheInvariant : Obligations.StepKeepsTheInvariant := by
  intro s t ⟨hwf, hpc, hfl, hrecord, _⟩ h
  obtain ⟨hrun, ⟨k, v, hff, rfl⟩ | ⟨i, hf, hi, hexec, hstatus⟩⟩ := step_cases h
  · exact ⟨hwf, hpc, hfl, takeFault_recordFits s (firstFault_fits hpc hff)⟩
  · refine ⟨exec_keeps_wf hexec hwf, exec_pc_le hf hi hexec, ?flags, ?record⟩
    case flags =>
      rcases exec_flagsAfter hi hexec with ⟨-, hkept⟩ | hone
      · rw [hkept]; exact hfl
      · exact hone.1
    case record =>
      have hnone : s.fault = none := by
        by_contra hsome
        have hfaulted := hrecord.mpr hsome
        rw [hrun] at hfaulted
        cases hfaulted
      exact recordFits_of_no_record (hstatus.run_ne_faulted hrun) (hstatus.1.trans hnone)

/-- Settles O45: the memory is empty, `pc` and the flags are 0, and there is no fault. -/
theorem resetMeetsTheInvariant : Obligations.ResetMeetsTheInvariant :=
  ⟨Memory.wf_nil, Nat.zero_le 256, by decide, recordFits_of_no_record (nofun) rfl⟩

/-- Settles O46, by induction on the run: a reset with an image differs from `State.reset` in the
memory alone, and every step keeps the invariant. -/
theorem reachableStatesMeetTheInvariant : Obligations.ReachableStatesMeetTheInvariant := by
  intro s hs
  induction hs with
  | reset image s t h =>
    obtain ⟨-, rfl⟩ := hostReset_next h
    obtain ⟨-, hrest⟩ := resetMeetsTheInvariant
    exact ⟨loadImage_wf image, hrest⟩
  | step s t _ h ih => exact stepKeepsTheInvariant s t ih h

/-- Settles O40: a write leaves every cell but its own alone. -/
theorem onlyPushAndCallStore : Obligations.OnlyPushAndCallStore := by
  intro i s t h c hc
  rcases exec_memAfter h with hmem | ⟨a, v, rfl, hmem⟩ | ⟨a, v, rfl, hmem⟩ <;> rw [hmem] at hc
  · exact absurd rfl hc
  · exact .inl ⟨a, rfl, not_imp_comm.mp (Memory.read_write_ne s.mem v) hc⟩
  · exact .inr ⟨a, rfl, not_imp_comm.mp (Memory.read_write_ne s.mem v) hc⟩

/-- Settles O41, with what the instruction emits. -/
theorem outputOnlyGrowsByPrn : Obligations.OutputOnlyGrowsByPrn := by
  intro i s t h
  obtain ⟨hout, hother⟩ := exec_outAfter h
  exact ⟨emitted s i, hout, emitted_ne_nil, hother⟩

/-- Settles O42: only HLT's completion leaves Halted, and HLT is fetched exactly where its byte
stands. -/
theorem onlyHltHalts : Obligations.OnlyHltHalts := by
  intro s t h
  have hrun := (step_next_cases h).1
  have of_byte : s.pc.toNat < 256 ∧ Memory.read s.mem s.pc.toNat = 0x01 → t = halt s := by
    intro hbyte
    have hplaced := (placed_one_iff s 0x01).mpr ⟨hrun, hbyte⟩
    cases h.symm.trans (step_of_placed (i := .hlt) hplaced)
    rfl
  have to_byte : t.run = .halted → s.pc.toNat < 256 ∧ Memory.read s.mem s.pc.toNat = 0x01 := by
    intro hhalted
    obtain ⟨-, ⟨k, v, -, rfl⟩ | ⟨i, hf, -, -, -, hstatus⟩⟩ := step_cases h
    · cases hhalted
    · rw [hstatus, hrun] at hhalted
      split at hhalted
      · next hi =>
        subst hi
        exact ((placed_one_iff s 0x01).mp ⟨hrun, (fetch_ok_iff s .hlt).mp hf⟩).2
      · cases hhalted
  refine ⟨⟨to_byte, fun hbyte => ?_⟩, fun hhalted => ?_⟩
  · rw [of_byte hbyte, halt_run]
  · rw [of_byte (to_byte hhalted)]
    exact ⟨rfl, rfl⟩

/-- Settles O47: fault entry keeps the flags, a completed CMP sets exactly one, and every other
completed instruction keeps them. -/
theorem oneFlagStaysSet : Obligations.OneFlagStaysSet := by
  intro s t h
  obtain ⟨hrun, ⟨k, v, -, rfl⟩ | ⟨i, hf, hi, hexec, -⟩⟩ := step_cases h
  · exact ⟨id, fun _ hok => absurd rfl hok⟩
  · rcases exec_flagsAfter hi hexec with ⟨hne, hkept⟩ | hone
    · refine ⟨fun hs => by rw [hkept]; exact hs, fun hplaced _ => ?_⟩
      obtain ⟨-, -, hop⟩ := (placed_one_iff s 0xA7).mp hplaced
      obtain ⟨-, -, henc⟩ := encode_of_fetch hf
      rw [hop] at henc
      exact absurd (encode_injective (j := .cmp _ _) henc) (hne _ _)
    · exact ⟨fun _ => hone, fun _ _ => hone⟩

end Sys2Proof.Proofs
end

section
/-! PROOFS. Reset and the host (`70_reset_and_hazards.md` sections 1 and 3): the reset values, the
image, and what the host reads. -/

namespace Sys2Proof.Machine

/-- The image stands from address 0 upward (`70_reset_and_hazards.md` R173). -/
theorem read_loadImage_inside {image : List Byte} (hlen : image.length ≤ 256) {j : Nat}
    (hj : j < image.length) : Memory.read (loadImage image) j = image[j] := by
  have h := Memory.read_writeList_inside [] 0 image hj (by omega)
  rwa [Nat.zero_add] at h

/-- Behind the image every cell holds 0 (`10_state.md` R33). -/
theorem read_loadImage_above (image : List Byte) {a : Nat} (ha : image.length ≤ a) :
    Memory.read (loadImage image) a = 0 :=
  Memory.read_writeList_above [] 0 image (by omega)

/-- The flag byte as a number: L, G and E have the weights 4, 2 and 1 (`10_state.md` R36). -/
theorem flagsToByte_toNat (f : Flags) :
    f.toByte.toNat = (if f.l then 4 else 0) + (if f.g then 2 else 0) + (if f.e then 1 else 0) := by
  obtain ⟨l, g, e⟩ := f
  revert l g e
  decide

end Sys2Proof.Machine

namespace Sys2Proof.Proofs

open Sys2Proof.Machine

/-- Settles O49: the reset values are constants of the model. -/
theorem resetClearsTheRest : Obligations.ResetClearsTheRest :=
  ⟨by decide, rfl, rfl, rfl, Memory.read_nil, rfl⟩

/-- Settles O50: an image that fits is written from address 0 into an empty memory. -/
theorem hostResetLoadsTheImage : Obligations.HostResetLoadsTheImage := by
  intro image s
  constructor
  · intro hlen
    exact ⟨_, if_pos hlen, fun j hj => read_loadImage_inside hlen hj,
      fun a ha => read_loadImage_above image ha, rfl⟩
  · intro hlong
    exact if_neg (Nat.not_le.mpr hlong)

/-- Settles O51: the final state is read exactly when the engine is not running. -/
theorem hostReadsTheFinalStateOnlyAtTheEnd : Obligations.HostReadsTheFinalStateOnlyAtTheEnd := by
  intro s
  refine ⟨rfl, rfl, fun hrun => if_pos hrun, fun hended => ?_⟩
  exact ⟨_, if_neg (run_ne_running_of_ended hended), rfl, rfl, rfl, flagsToByte_toNat s.fl⟩

end Sys2Proof.Proofs
end
